-- ==== Sys2Proof/Word.lean ====
section
/-! DEFINITION. The block's units of data: the byte, the byte sequence and the operation-code byte
(00_scope.md R11, 10_state.md R21). There is no machine word and no address space (R10, R35). -/

namespace Sys2Proof

/-- A byte: an integer from 0 to 255 (R11). -/
abbrev Byte := BitVec 8

/-- A finite sequence of bytes, index 0 first on the wire (R11, R41). -/
abbrev Bytes := List Byte

/-- The 8-bit operation code of a request (R21, R60). -/
abbrev Opc := BitVec 8

/-- A label name: an opaque token that the block only compares for equality (R119).
DESIGN CHOICE (log 5): tokens are numbered, so that a finite set of them has one written form. -/
abbrev LabelName := Nat

end Sys2Proof
end

