-- ==== Sys2Proof/Config.lean ====
section
/-! DEFINITION. The open parameters of the block (00_scope.md R8) as read-only configuration
(10_state.md R26). No source gives their values: a `Config` is any legal choice of them, and the one the
reset state holds is made of constants with no body, so no proof can see what they are. -/

namespace Sys2Proof

/-- `SCALE_MAX`: a positive integer, or unbounded (R8). -/
inductive ScaleMax where
  | unbounded
  | atMost (n : Nat)
deriving DecidableEq, Repr, Inhabited

/-- The nine open parameters of R8, not yet checked. -/
structure ConfigParams where
  startByte : Byte
  protocolByte : Byte
  ctReadRequest : Byte
  ctReadResponse : Byte
  ctWriteRequest : Byte
  ctWriteResponse : Byte
  ctError : Byte
  scanWindow : Nat
  scaleMax : ScaleMax
deriving DecidableEq, Repr

/-- The five command-type codes, in the order of R8. -/
def ConfigParams.codes (p : ConfigParams) : List Byte :=
  [p.ctReadRequest, p.ctReadResponse, p.ctWriteRequest, p.ctWriteResponse, p.ctError]

/-- R8 and R26: the five `CT_` codes are pairwise distinct. -/
def ConfigParams.codesDistinct (p : ConfigParams) : Bool := decide p.codes.Nodup

/-- R8: `SCALE_MAX` is at least 1 where it is bounded. That the block refuses another one is DEDUCED (log 3). -/
def ConfigParams.scaleMaxPositive (p : ConfigParams) : Bool :=
  match p.scaleMax with
  | .unbounded => true
  | .atMost n => decide (1 ≤ n)

/-- A legal configuration. R26: one that breaks this is refused as a whole. -/
def ConfigParams.legal (p : ConfigParams) : Bool := p.codesDistinct && p.scaleMaxPositive

/-- The configuration the block holds: parameters with the check of R26 already passed, so that the block is
never given a behaviour under an illegal one (`boot` refuses those). DESIGN CHOICE (log 9). -/
structure Config extends ConfigParams where
  legal : toConfigParams.legal = true := by decide
deriving DecidableEq, Repr

/-! The values of the parameters: constants with no body (D3, D4, D15, D20). The five codes are the images of
0 to 4 under one arbitrary permutation of the bytes, which is the same as five arbitrary, pairwise distinct
bytes. A bounded `SCALE_MAX` is one more than an arbitrary natural number, that is, any positive one. DESIGN CHOICE (log 1). -/

opaque Config.startByteValue : Byte
opaque Config.protocolByteValue : Byte
opaque Config.codePermutation : Equiv.Perm Byte
opaque Config.scanWindowValue : Nat
opaque Config.scaleMaxChoice : ScaleMax

/-- The `SCALE_MAX` of R8: unbounded or any positive integer. -/
def Config.scaleMaxValue : ScaleMax :=
  match Config.scaleMaxChoice with
  | .unbounded => .unbounded
  | .atMost n => .atMost (n + 1)

/-- The parameter values of R8, unknown but legal. -/
def Config.parameterValues : ConfigParams where
  startByte := Config.startByteValue
  protocolByte := Config.protocolByteValue
  ctReadRequest := Config.codePermutation 0
  ctReadResponse := Config.codePermutation 1
  ctWriteRequest := Config.codePermutation 2
  ctWriteResponse := Config.codePermutation 3
  ctError := Config.codePermutation 4
  scanWindow := Config.scanWindowValue
  scaleMax := Config.scaleMaxValue

theorem Config.parameterValues_legal : Config.parameterValues.legal = true := by
  have h : Config.parameterValues.codes.Nodup := by
    simp [ConfigParams.codes, Config.parameterValues]
  have h' : Config.parameterValues.scaleMaxPositive = true := by
    simp only [ConfigParams.scaleMaxPositive, Config.parameterValues, Config.scaleMaxValue]
    cases Config.scaleMaxChoice <;> simp
  simp [ConfigParams.legal, ConfigParams.codesDistinct, h, h']

/-- The configuration the reset state holds (R150). -/
def Config.parameters : Config where
  toConfigParams := Config.parameterValues
  legal := Config.parameterValues_legal

end Sys2Proof
end

