-- ==== Sys2Proof/Syntax.lean ====
section
/-! DEFINITION. The operations and the request record, as the host writes them: the enumerations of
00_scope.md R16, the fourteen operations of 30_encoding.md R61 with what their `opc` byte selects, and the
request record of 10_state.md R21. -/

namespace Sys2Proof

/-- The five command types (R16). -/
inductive CommandType where
  | readRequest
  | readResponse
  | writeRequest
  | writeResponse
  | error
deriving DecidableEq, Repr

/-- The value width that WC selects (R62). -/
inductive Width where
  | w1
  | w2
  | w4
deriving DecidableEq, Repr

/-- The width in bytes (R7, R62). -/
def Width.bytes : Width → Nat
  | .w1 => 1
  | .w2 => 2
  | .w4 => 4

/-- The S bit of a FixedPoint operation (R63): 0 is unsigned, 1 is two's complement. -/
inductive Signedness where
  | unsigned
  | signed
deriving DecidableEq, Repr

/-- The operations of R61, one constructor per row of opcode_table.json, with the fields of `opc` that the
row leaves free (R60: OPC-N none, OPC-W the width, OPC-SW the signedness and the width). The other operands
are fields of the request record (R64). -/
inductive Instr where
  | frmEnc
  | frmDec
  | frmCsum
  | frmHunt
  | valDecU (w : Width)
  | valEncU (w : Width)
  | valDecS (w : Width)
  | valEncS (w : Width)
  | valDecFx (sg : Signedness) (w : Width)
  | valEncFx (sg : Signedness) (w : Width)
  | valDecBf (w : Width)
  | valEncBf (w : Width)
  | valDecRaw
  | valEncRaw
deriving DecidableEq, Repr

/-- Why an `opc` byte is refused: R65 items 1 to 5, in that order. -/
inductive OpcReject where
  /-- Item 1: OP = 0xE or OP = 0xF. -/
  | reservedOp
  /-- Item 2: RSV = 1. -/
  | reservedBit
  /-- Item 3: S = 1 with an OP other than 0x8 and 0x9. -/
  | signednessBit
  /-- Item 4: WC not 00 with an OP that has no width. -/
  | unusedWidthCode
  /-- Item 5: WC = 11 with an OP that has a width. -/
  | reservedWidthCode
deriving DecidableEq, Repr

/-- One field of the request record: the host left it without a value, wrote something that is not of the
field's type, or wrote a value (R21, R65 item 10). DESIGN CHOICE (log 4): a value of another type is only that it is one. -/
inductive Slot (α : Type) where
  | noValue
  | wrongType
  | val (a : α)
deriving DecidableEq, Repr

/-- The value in a slot, where there is one. -/
def Slot.value? {α : Type} : Slot α → Option α
  | .val a => some a
  | .noValue => none
  | .wrongType => none

/-- One pair of a label table (R114, R119): a label name and a bit index. -/
structure Label where
  name : LabelName
  bit : Nat
deriving DecidableEq, Repr

/-- The request record (R21). `input` is the field the spec calls `in`. -/
structure Request where
  opc : Slot Opc := .noValue
  ct : Slot CommandType := .noValue
  addr : Slot Nat := .noValue
  len : Slot Nat := .noValue
  payload : Slot Bytes := .noValue
  input : Slot Bytes := .noValue
  scale : Slot Nat := .noValue
  labels : Slot (List Label) := .noValue
  rwidth : Slot Nat := .noValue
  ival : Slot Int := .noValue
  qval : Slot Rat := .noValue
  names : Slot (List LabelName) := .noValue
  rawval : Slot Bytes := .noValue
deriving DecidableEq, Repr

/-- The names of the request's fields, for the refusals of R65 item 10. -/
inductive OperandName where
  | opc
  | ct
  | addr
  | len
  | payload
  | input
  | scale
  | labels
  | rwidth
  | ival
  | qval
  | names
  | rawval
deriving DecidableEq, Repr

/-- The five value types of a descriptor (R16). A Raw value's width is a number of bytes. -/
inductive ValueType where
  | unsignedInt (w : Width)
  | signedInt (w : Width)
  | fixedPoint (w : Width) (scale : Nat)
  | bitField (w : Width) (labels : List Label)
  | raw (width : Nat)
deriving DecidableEq, Repr

/-- A typed value, as a host hands it over for a write: an integer, an exact rational, a set of label names or a byte
sequence (R2, R105, R114, R121). -/
inductive Value where
  | int (v : Int)
  | rat (q : Rat)
  | names (ns : List LabelName)
  | bytes (b : Bytes)
deriving DecidableEq, Repr

end Sys2Proof
end

