-- ==== Sys2Proof/WellFormed.lean ====
section
/-! DEFINITION. When a request is well-formed: the negation of each item of 30_encoding.md R65. Items 1 to 5
are about the `opc` byte, items 6 to 10 about the operands. The refusals themselves, each with its own
reason, are in Decode.lean (items 1 to 5) and Machine/Operands.lean (items 6 to 10); Laws/Operands.lean
proves that the two agree. -/

namespace Sys2Proof

/-- R65 items 1 to 5, on the fields of R60. -/
def opcWellFormed (o : Opc) : Bool :=
  let op := o.toNat / 16
  let rsv := o.toNat / 8 % 2
  let s := o.toNat / 4 % 2
  let wc := o.toNat % 4
  !(op == 0xE || op == 0xF) &&
  !(rsv == 1) &&
  !(s == 1 && !(op == 0x8 || op == 0x9)) &&
  !(wc != 0 && (op == 0x0 || op == 0x1 || op == 0x2 || op == 0x3 || op == 0xC || op == 0xD)) &&
  !(wc == 3 && (0x4 ≤ op && op ≤ 0xB))

/-- R65 item 10 for one operand: it is there and has its type. -/
def Slot.isValue {α : Type} (f : Slot α) : Bool := f.value?.isSome

/-- R65 item 6 (and 10): FRM.ENC's operands. -/
def frmEncWellFormed (req : Request) : Bool :=
  match req.ct, req.addr, req.len, req.payload with
  | .val _, .val addr, .val len, .val payload =>
    decide (len = payload.length) && decide (payload.length ≤ 255) && decide (addr < 2 ^ 16)
  | _, _, _, _ => false

/-- R21: `scale` is at least 1 and at most `SCALE_MAX`. -/
def scaleInRange (m : ScaleMax) (scale : Nat) : Bool :=
  decide (1 ≤ scale) &&
  match m with
  | .unbounded => true
  | .atMost n => decide (scale ≤ n)

/-- R65 item 7 (and 10): the scale of a FixedPoint operation. -/
def scaleWellFormed (cfg : Config) (f : Slot Nat) : Bool :=
  match f with
  | .val scale => scaleInRange cfg.scaleMax scale
  | _ => false

/-- R65 item 8: names pairwise distinct, bit indices pairwise distinct and below `8w`. -/
def labelsInRange (w : Width) (labels : List Label) : Bool :=
  decide (labels.map Label.name).Nodup &&
  decide (labels.map Label.bit).Nodup &&
  labels.all fun l => decide (l.bit < 8 * w.bytes)

/-- R65 item 8 (and 10): the label table of a BitField operation. -/
def labelsWellFormed (w : Width) (f : Slot (List Label)) : Bool :=
  match f with
  | .val labels => labelsInRange w labels
  | _ => false

/-- R65 item 9 (and 10): the width of a Raw operation. -/
def rwidthWellFormed (f : Slot Nat) : Bool :=
  match f with
  | .val n => decide (1 ≤ n) && decide (n ≤ 255)
  | _ => false

/-- R65 items 6 to 10 for the operands that R64 gives the operation. -/
def Request.wellFormed (cfg : Config) (i : Instr) (req : Request) : Bool :=
  match i with
  | .frmEnc => frmEncWellFormed req
  | .frmDec => req.input.isValue
  | .frmCsum => req.input.isValue
  | .frmHunt => req.input.isValue
  | .valDecU _ => req.input.isValue
  | .valEncU _ => req.ival.isValue
  | .valDecS _ => req.input.isValue
  | .valEncS _ => req.ival.isValue
  | .valDecFx _ _ => req.input.isValue && scaleWellFormed cfg req.scale
  | .valEncFx _ _ => req.qval.isValue && scaleWellFormed cfg req.scale
  | .valDecBf w => req.input.isValue && labelsWellFormed w req.labels
  | .valEncBf w => req.names.isValue && labelsWellFormed w req.labels
  | .valDecRaw => req.input.isValue && rwidthWellFormed req.rwidth
  | .valEncRaw => req.rawval.isValue && rwidthWellFormed req.rwidth

end Sys2Proof
end

