-- ==== Sys2Proof/Decode.lean ====
section
/-! DEFINITION. The operation-code byte (30_encoding.md R60 to R65, R68): the decoder, total on every byte,
rejecting by name, and after it the encoder. -/

namespace Sys2Proof

/-! The fields of `opc` (R60). -/

/-- OP, `opc[7:4]`. -/
def opField (o : Opc) : Nat := o.toNat / 16

/-- RSV, `opc[3]`. -/
def rsvField (o : Opc) : Bool := o.getLsbD 3

/-- S, `opc[2]`. -/
def sField (o : Opc) : Bool := o.getLsbD 2

/-- WC, `opc[1:0]`. -/
def wcField (o : Opc) : Nat := o.toNat % 4

/-- R62: the width that a width code selects; 11 is reserved. -/
def widthOfCode : Nat → Option Width
  | 0 => some .w1
  | 1 => some .w2
  | 2 => some .w4
  | _ => none

/-- R63: the signedness that the S bit selects. -/
def signednessOfBit : Bool → Signedness
  | false => .unsigned
  | true => .signed

/-- Format OPC-N of R60: RSV, S and WC are all 0. -/
def decodePlain (o : Opc) (i : Instr) : Except OpcReject Instr :=
  if rsvField o then .error .reservedBit
  else if sField o then .error .signednessBit
  else if wcField o = 0 then .ok i
  else .error .unusedWidthCode

/-- Format OPC-W of R60: RSV and S are 0, and WC selects the width. -/
def decodeWidth (o : Opc) (f : Width → Instr) : Except OpcReject Instr :=
  if rsvField o then .error .reservedBit
  else if sField o then .error .signednessBit
  else match widthOfCode (wcField o) with
    | some w => .ok (f w)
    | none => .error .reservedWidthCode

/-- Format OPC-SW of R60: RSV is 0, S selects the signedness and WC the width. -/
def decodeSignedWidth (o : Opc) (f : Signedness → Width → Instr) : Except OpcReject Instr :=
  if rsvField o then .error .reservedBit
  else match widthOfCode (wcField o) with
    | some w => .ok (f (signednessOfBit (sField o)) w)
    | none => .error .reservedWidthCode

/-- The opcode map of R61, with the refusals of R65 items 1 to 5. Where several items hold, the first in R65's
order is named (DESIGN CHOICE, log 8: R65 gives the items no priority). -/
def decodeOpc (o : Opc) : Except OpcReject Instr :=
  match opField o with
  | 0x0 => decodePlain o .frmEnc
  | 0x1 => decodePlain o .frmDec
  | 0x2 => decodePlain o .frmCsum
  | 0x3 => decodePlain o .frmHunt
  | 0x4 => decodeWidth o .valDecU
  | 0x5 => decodeWidth o .valEncU
  | 0x6 => decodeWidth o .valDecS
  | 0x7 => decodeWidth o .valEncS
  | 0x8 => decodeSignedWidth o .valDecFx
  | 0x9 => decodeSignedWidth o .valEncFx
  | 0xA => decodeWidth o .valDecBf
  | 0xB => decodeWidth o .valEncBf
  | 0xC => decodePlain o .valDecRaw
  | 0xD => decodePlain o .valEncRaw
  | _ => .error .reservedOp

/-- The instruction the decoder reads from an instruction whose bits are `w`: one byte, with every bit from
`nbits` on being 0. -/
def decodeTableWord (nbits w : Nat) : Option Instr :=
  let bits := w % 2 ^ nbits
  if bits < 256 then
    match decodeOpc (BitVec.ofNat 8 bits) with
    | .ok i => some i
    | .error _ => none
  else none

/-! The encoder (R68). -/

/-- The OP column of R61. -/
def Instr.op : Instr → Nat
  | .frmEnc => 0x0
  | .frmDec => 0x1
  | .frmCsum => 0x2
  | .frmHunt => 0x3
  | .valDecU _ => 0x4
  | .valEncU _ => 0x5
  | .valDecS _ => 0x6
  | .valEncS _ => 0x7
  | .valDecFx _ _ => 0x8
  | .valEncFx _ _ => 0x9
  | .valDecBf _ => 0xA
  | .valEncBf _ => 0xB
  | .valDecRaw => 0xC
  | .valEncRaw => 0xD

/-- R62: the width code of a width. -/
def Width.code : Width → Nat
  | .w1 => 0
  | .w2 => 1
  | .w4 => 2

/-- R63: the S bit of a signedness. -/
def Signedness.bit : Signedness → Nat
  | .unsigned => 0
  | .signed => 1

/-- The S bit of an operation: 0 but for a signed FixedPoint operation (R63). -/
def Instr.sBit : Instr → Nat
  | .frmEnc => 0
  | .frmDec => 0
  | .frmCsum => 0
  | .frmHunt => 0
  | .valDecU _ => 0
  | .valEncU _ => 0
  | .valDecS _ => 0
  | .valEncS _ => 0
  | .valDecFx sg _ => sg.bit
  | .valEncFx sg _ => sg.bit
  | .valDecBf _ => 0
  | .valEncBf _ => 0
  | .valDecRaw => 0
  | .valEncRaw => 0

/-- The width code of an operation: 0 where it has no width (R60). -/
def Instr.wc : Instr → Nat
  | .frmEnc => 0
  | .frmDec => 0
  | .frmCsum => 0
  | .frmHunt => 0
  | .valDecU w => w.code
  | .valEncU w => w.code
  | .valDecS w => w.code
  | .valEncS w => w.code
  | .valDecFx _ w => w.code
  | .valEncFx _ w => w.code
  | .valDecBf w => w.code
  | .valEncBf w => w.code
  | .valDecRaw => 0
  | .valEncRaw => 0

/-- R68: `opc = OP·16 + S·4 + WC`. -/
def encode (i : Instr) : Opc := BitVec.ofNat 8 (i.op * 16 + i.sBit * 4 + i.wc)

/-- The mnemonic of R61 with the suffixes of R67, as the spec's assembler syntax spells an operation. -/
def Instr.spelling (i : Instr) : String :=
  let width : Width → String
    | .w1 => ".1"
    | .w2 => ".2"
    | .w4 => ".4"
  let sign : Signedness → String
    | .unsigned => ".U"
    | .signed => ".S"
  match i with
  | .frmEnc => "FRM.ENC"
  | .frmDec => "FRM.DEC"
  | .frmCsum => "FRM.CSUM"
  | .frmHunt => "FRM.HUNT"
  | .valDecU w => "VAL.DEC.U" ++ width w
  | .valEncU w => "VAL.ENC.U" ++ width w
  | .valDecS w => "VAL.DEC.S" ++ width w
  | .valEncS w => "VAL.ENC.S" ++ width w
  | .valDecFx sg w => "VAL.DEC.FX" ++ sign sg ++ width w
  | .valEncFx sg w => "VAL.ENC.FX" ++ sign sg ++ width w
  | .valDecBf w => "VAL.DEC.BF" ++ width w
  | .valEncBf w => "VAL.ENC.BF" ++ width w
  | .valDecRaw => "VAL.DEC.RAW"
  | .valEncRaw => "VAL.ENC.RAW"

end Sys2Proof
end

