-- ==== Sys2Proof/Machine/State.lean ====
section
/-! DEFINITION. The state of the block and of its interface to the host (10_state.md): the configuration (R26), the
request record (R21), the response record (R22) and whether an operation is in flight (R34), with the reset
state (70_reset_and_hazards.md R150 to R152) and the reasons a step or a host access can stop. There is no
program counter, register file, flag, memory or mode (R24, R25, R27, R28, R35, R142). -/

namespace Sys2Proof.Machine

/-- The outcome indication of an operation (R130). Its numeric codes are in Machine/Flags.lean. -/
inductive Status where
  | ok
  | truncated
  | badChecksum
  | unknownCommandType
  | lengthMismatch
  | unrepresentable
deriving DecidableEq, Repr

/-- The Frame record (R29). Its ranges and invariants are `Frame.wf` in Safety.lean. -/
structure Frame where
  startByte : Byte
  protocolByte : Byte
  commandType : CommandType
  address : Nat
  length : Nat
  payload : Bytes
  checksum : Byte
deriving DecidableEq, Repr

/-- The response record (R22). `none` is the spec's own state "holds no value" (R32, R151; log 2), not a missing
reset value. `names` is a finite set, written as its strictly rising list (log 5). -/
structure Response where
  status : Option Status := none
  out : Option Bytes := none
  frame : Option Frame := none
  consumed : Option Nat := none
  csum : Option Byte := none
  skip : Option Nat := none
  ival : Option Int := none
  qval : Option Rat := none
  names : Option (List LabelName) := none
  unlabelled : Option Nat := none
deriving DecidableEq, Repr

/-- The fields of the response record, by name, for the fault of a read that finds no value. -/
inductive ResponseField where
  | status
  | out
  | frame
  | consumed
  | csum
  | skip
  | ival
  | qval
  | names
  | unlabelled
deriving DecidableEq, Repr

/-- Why an access stops with a fault. -/
inductive Fault where
  /-- Raised by the host's read of a response field that holds no value, never by an operation of the block
  (R32, R151; 93_implementation_defined.md U9). Safe: the host gets no value, neither zero nor a stale one. -/
  | noValue (field : ResponseField)
  /-- Raised by the host's read of a response field while a request is in flight, never by an operation of the block: the
  response that can be read is the one to the request last issued (R45), which is not there yet (DESIGN CHOICE, log 15). Safe: the host
  gets no value. -/
  | responsePending (field : ResponseField)
deriving DecidableEq, Repr

/-- Why a request, a configuration or an instruction is given no meaning. -/
inductive Refusal where
  /-- Raised by `exec` for an instruction that has no meaning in the model yet; no arm of this model does. Safe. -/
  | notModelled (mnemonic : String)
  /-- Raised by `step` on an `opc` that R65 items 1 to 5 refuse. Safe. -/
  | opcode (why : OpcReject)
  /-- Raised by `step` and by every operation that reads the field: the operand is missing (R65 item 10). Safe. -/
  | missingOperand (field : OperandName)
  /-- Raised by `step` and by every operation that reads the field: the operand has the wrong type (R65 item 10;
  for `ct` also item 6). Safe. -/
  | illTypedOperand (field : OperandName)
  /-- Raised by FRM.ENC: `len` is not the size of `payload` (R65 item 6). Safe. -/
  | frameLength
  /-- Raised by FRM.ENC: `payload` is longer than 255 bytes (R65 item 6). Safe. -/
  | framePayload
  /-- Raised by FRM.ENC: `addr` is 2^16 or more (R65 item 6). Safe. -/
  | frameAddress
  /-- Raised by VAL.DEC.FX and VAL.ENC.FX: `scale` is below 1 or above `SCALE_MAX` (R65 item 7). Safe. -/
  | scaleRange
  /-- Raised by VAL.DEC.BF and VAL.ENC.BF: two labels have the same name (R65 item 8). Safe. -/
  | labelNames
  /-- Raised by VAL.DEC.BF and VAL.ENC.BF: two labels have the same bit index (R65 item 8). Safe. -/
  | labelBits
  /-- Raised by VAL.DEC.BF and VAL.ENC.BF: a label's bit index is `8w` or more (R65 item 8). Safe. -/
  | labelRange
  /-- Raised by VAL.DEC.RAW and VAL.ENC.RAW: `rwidth` is below 1 or above 255 (R65 item 9). Safe. -/
  | rawWidth
  /-- Raised by `State.issue`: the host issues a request while another is in flight (R158; D30). Safe. -/
  | overlappingRequest
  /-- Raised by `boot`: the configuration is refused as a whole (R26, D4; R8 for `SCALE_MAX`). Safe. -/
  | illegalConfiguration
deriving DecidableEq, Repr

/-- The state (R20 to R28, R34). -/
structure State where
  cfg : Config
  req : Request
  rsp : Response
  inFlight : Bool
deriving DecidableEq, Repr

/-- What a step, a meaning or a host action on the whole block answers. -/
abbrev Result := Host.Outcome State Fault Refusal

/-- R34, R150 to R152: right after reset the configuration holds its parameter values, the request and response
records hold no value and no operation is in flight. -/
def State.resetWith (cfg : Config) : State where
  cfg := cfg
  req := {}
  rsp := {}
  inFlight := false

/-- The block right after reset, under the open parameters of R8. -/
def State.reset : State := State.resetWith Config.parameters

end Sys2Proof.Machine
end

