-- ==== Sys2Proof/Machine/Flags.lean ====
section
/-! DEFINITION. The outcome indication. The block has no flags (10_state.md R27): the response's `status` is all
there is, and this file holds its codes and the response that an error leaves. -/

namespace Sys2Proof.Machine

/-- The numeric status codes of R130 (D27). -/
def Status.code : Status → Byte
  | .ok => 0x00
  | .truncated => 0x10
  | .badChecksum => 0x11
  | .unknownCommandType => 0x12
  | .lengthMismatch => 0x20
  | .unrepresentable => 0x21

/-- `raise E` of R15: the operation ends with status `E`, and every other response field holds no value (R132). -/
def raiseError (e : Status) : Response := { status := some e }

end Sys2Proof.Machine
end

