-- ==== Sys2Proof/Machine/Ops.lean ====
section
/-! DEFINITION. The shared operations: the conversions and the rounding of 00_scope.md R13 and R14, the checksum of
40_frame.md R71, the bit and name operations of the BitField rules, the end of an operation (10_state.md R20, R22,
R157), and the host's side of the interface (issue, reset, boot, reading a field). -/

namespace Sys2Proof.Machine

/-! Bytes (R11, R13, R71). -/

/-- `b[i]`. Every use stands behind a length check, so the value past the end is never read. -/
def byteAt (b : Bytes) (i : Nat) : Byte := b.getD i 0

/-- The unsigned sum of all the bytes. -/
def sumBytes : Bytes → Nat
  | [] => 0
  | b :: bs => b.toNat + sumBytes bs

/-- R71: the low 8 bits of the sum. -/
def csum (b : Bytes) : Byte := BitVec.ofNat 8 (sumBytes b)

/-- `be_N(b)` for `N = |b|` (R13): the big-endian reading. -/
def beNat : Bytes → Nat
  | [] => 0
  | b :: bs => b.toNat * 256 ^ bs.length + beNat bs

/-- `to_be_N(u)` (R13): the `N` bytes of `u`, most significant first. -/
def toBe : Nat → Nat → Bytes
  | 0, _ => []
  | n + 1, u => BitVec.ofNat 8 (u / 256 ^ n) :: toBe n u

/-- `sext_N(u)` (R13): two's complement reading of an `8N`-bit number. -/
def sext (n u : Nat) : Int :=
  if u < 2 ^ (8 * n - 1) then (u : Int) else (u : Int) - 2 ^ (8 * n)

/-- `twos_N(v)` (R13): `v mod 2^(8N)`. -/
def twos (n : Nat) (v : Int) : Nat := (v % 2 ^ (8 * n)).toNat

/-! Rationals (R14, R105). Each is written on numerators and denominators so that it evaluates; Laws/Rational.lean
proves it equal to the spec's expression. -/

/-- `round_haz(x)` (R14): half away from zero. -/
def roundHaz (x : Rat) : Int :=
  x.num.sign * ((2 * x.num.natAbs + x.den) / (2 * x.den) : Nat)

/-- `raw / scale`, exactly (R106). -/
def overScale (raw : Int) (scale : Nat) : Rat := mkRat raw scale

/-- `qval * scale`, exactly (R107). -/
def timesScale (q : Rat) (scale : Nat) : Rat := mkRat (q.num * (scale : Int)) q.den

/-! Names and bits (R114 to R119). -/

/-- Add a name to a strictly rising list of names. -/
def insertName (n : LabelName) : List LabelName → List LabelName
  | [] => [n]
  | m :: ms => if n < m then n :: m :: ms else if n = m then m :: ms else m :: insertName n ms

/-- The finite set of the names in a list, as a strictly rising list. -/
def nameSet : List LabelName → List LabelName
  | [] => []
  | n :: ns => insertName n (nameSet ns)

/-- `Σ 2^k` over the pairs `(n, k)` of a label list. -/
def labelMask (labels : List Label) : Nat := (labels.map fun l => 2 ^ l.bit).sum

/-- `u AND NOT m`. -/
def andNot (u m : Nat) : Nat := u ^^^ (u &&& m)

/-! The command-type codes (R16, R53). -/

end Sys2Proof.Machine

namespace Sys2Proof

/-- `code(ct)` (R16). -/
def Config.code (cfg : Config) : CommandType → Byte
  | .readRequest => cfg.ctReadRequest
  | .readResponse => cfg.ctReadResponse
  | .writeRequest => cfg.ctWriteRequest
  | .writeResponse => cfg.ctWriteResponse
  | .error => cfg.ctError

/-- `ct_of(x)` (R16): the command type whose code is `x`, where there is one. -/
def Config.ctOf (cfg : Config) (x : Byte) : Option CommandType :=
  if x = cfg.ctReadRequest then some .readRequest
  else if x = cfg.ctReadResponse then some .readResponse
  else if x = cfg.ctWriteRequest then some .writeRequest
  else if x = cfg.ctWriteResponse then some .writeResponse
  else if x = cfg.ctError then some .error
  else none

end Sys2Proof

namespace Sys2Proof.Machine

/-! The end of an operation. -/

/-- The block writes its response and the operation is over. Every field the operation did not write holds no
value afterwards (R22, R157); nothing else changes (R20, R23). -/
def State.respond (s : State) (r : Response) : State := { s with rsp := r, inFlight := false }

/-- An operation whose request was well-formed ends with its response; a refused request gets none (R135), and the
model says nothing of the state it leaves (DESIGN CHOICE, log 10). -/
def State.conclude (s : State) (r : Except Refusal Response) : Result :=
  match r with
  | .ok rsp => .next (s.respond rsp)
  | .error e => .refused e

/-! The host's side (R20, R21, R26, R32, R151, R153, R158). -/

/-- The host writes a request and issues it. R158: not while another is in flight. The response record is written at the
end of an operation (R22), so it stays as it is here; no read reaches it meanwhile (DESIGN CHOICE, log 15). -/
def State.issue (s : State) (r : Request) : Result :=
  if s.inFlight then .refused .overlappingRequest
  else .next { s with req := r, inFlight := true }

/-- A reset of the running block (R150, R153): the records hold no value, nothing is in flight, and the
configuration keeps its values. -/
def State.hostReset (s : State) : State := State.resetWith s.cfg

/-- The configuration is fixed before anything else (R155). R26: an illegal one is refused as a whole. -/
def boot (p : ConfigParams) : Result :=
  if h : p.legal = true then .next (State.resetWith { toConfigParams := p, legal := h })
  else .refused .illegalConfiguration

/-- The host's read of a response field. R45: what it reads is the response to the request it last issued, so a read while
that request is in flight faults (DESIGN CHOICE, log 15: R45 says what is not read then, not what the read does). R32: a
field that holds no value faults. -/
def State.readField {α : Type} (s : State) (field : ResponseField) (value : Response → Option α) : Except Fault α :=
  match s.inFlight with
  | true => .error (.responsePending field)
  | false =>
    match value s.rsp with
    | some a => .ok a
    | none => .error (.noValue field)

def State.readStatus (s : State) : Except Fault Status := s.readField .status Response.status
def State.readOut (s : State) : Except Fault Bytes := s.readField .out Response.out
def State.readFrame (s : State) : Except Fault Frame := s.readField .frame Response.frame
def State.readConsumed (s : State) : Except Fault Nat := s.readField .consumed Response.consumed
def State.readCsum (s : State) : Except Fault Byte := s.readField .csum Response.csum
def State.readSkip (s : State) : Except Fault Nat := s.readField .skip Response.skip
def State.readIval (s : State) : Except Fault Int := s.readField .ival Response.ival
def State.readQval (s : State) : Except Fault Rat := s.readField .qval Response.qval
def State.readNames (s : State) : Except Fault (List LabelName) := s.readField .names Response.names
def State.readUnlabelled (s : State) : Except Fault Nat := s.readField .unlabelled Response.unlabelled

end Sys2Proof.Machine
end

