-- ==== Sys2Proof/Machine/Operands.lean ====
section
/-! DEFINITION. Reading an operation's operands from the request record (30_encoding.md R64), with the refusals of
R65 items 6 to 10. R137: a refusal comes before every error check. Where several items hold, the operand that R64 lists
first is named, and its presence before its range (DESIGN CHOICE, log 8: R65 gives the items no priority). -/

namespace Sys2Proof.Machine

/-- R65 item 10: an operand that the operation reads is there and has its type. -/
def readSlot {α : Type} (name : OperandName) : Slot α → Except Refusal α
  | .noValue => .error (.missingOperand name)
  | .wrongType => .error (.illTypedOperand name)
  | .val a => .ok a

/-- R65 item 6: what FRM.ENC asks of its operands. -/
def checkFrame (addr len : Nat) (payload : Bytes) : Except Refusal Unit :=
  if len ≠ payload.length then .error .frameLength
  else if payload.length > 255 then .error .framePayload
  else if addr ≥ 2 ^ 16 then .error .frameAddress
  else .ok ()

/-- FRM.ENC reads `ct`, `addr`, `len` and `payload`. -/
def readFrmEnc (req : Request) : Except Refusal (CommandType × Nat × Nat × Bytes) := do
  let ct ← readSlot .ct req.ct
  let addr ← readSlot .addr req.addr
  let len ← readSlot .len req.len
  let payload ← readSlot .payload req.payload
  checkFrame addr len payload
  .ok (ct, addr, len, payload)

/-- The operations whose only operand is the byte sequence `in`. -/
def readInput (req : Request) : Except Refusal Bytes := readSlot .input req.input

/-- The operations whose only operand is the integer `ival`. -/
def readIval (req : Request) : Except Refusal Int := readSlot .ival req.ival

/-- R65 item 7. A scale of 1 is within every `SCALE_MAX`, since `SCALE_MAX` is at least 1 (R8). -/
def checkScale (m : ScaleMax) (scale : Nat) : Except Refusal Unit :=
  match scale with
  | 0 => .error .scaleRange
  | 1 => .ok ()
  | n + 2 =>
    match m with
    | .unbounded => .ok ()
    | .atMost top => if n + 2 ≤ top then .ok () else .error .scaleRange

/-- The scale of a FixedPoint operation. -/
def readScale (cfg : Config) (req : Request) : Except Refusal Nat := do
  let scale ← readSlot .scale req.scale
  checkScale cfg.scaleMax scale
  .ok scale

/-- VAL.DEC.FX reads `in` and `scale`. -/
def readDecFx (cfg : Config) (req : Request) : Except Refusal (Bytes × Nat) := do
  let b ← readSlot .input req.input
  let scale ← readScale cfg req
  .ok (b, scale)

/-- VAL.ENC.FX reads `qval` and `scale`. -/
def readEncFx (cfg : Config) (req : Request) : Except Refusal (Rat × Nat) := do
  let q ← readSlot .qval req.qval
  let scale ← readScale cfg req
  .ok (q, scale)

/-- R65 item 8. -/
def checkLabels (w : Width) (labels : List Label) : Except Refusal Unit :=
  if ¬ (labels.map Label.name).Nodup then .error .labelNames
  else if ¬ (labels.map Label.bit).Nodup then .error .labelBits
  else if labels.all (fun l => decide (l.bit < 8 * w.bytes)) then .ok ()
  else .error .labelRange

/-- The label table of a BitField operation. -/
def readLabels (w : Width) (req : Request) : Except Refusal (List Label) := do
  let labels ← readSlot .labels req.labels
  checkLabels w labels
  .ok labels

/-- VAL.DEC.BF reads `in` and `labels`. -/
def readDecBf (w : Width) (req : Request) : Except Refusal (Bytes × List Label) := do
  let b ← readSlot .input req.input
  let labels ← readLabels w req
  .ok (b, labels)

/-- VAL.ENC.BF reads `names` and `labels`. -/
def readEncBf (w : Width) (req : Request) : Except Refusal (List LabelName × List Label) := do
  let names ← readSlot .names req.names
  let labels ← readLabels w req
  .ok (names, labels)

/-- R65 item 9. -/
def checkRawWidth (n : Nat) : Except Refusal Unit :=
  if 1 ≤ n ∧ n ≤ 255 then .ok () else .error .rawWidth

/-- The width of a Raw operation. -/
def readRawWidth (req : Request) : Except Refusal Nat := do
  let n ← readSlot .rwidth req.rwidth
  checkRawWidth n
  .ok n

/-- VAL.DEC.RAW reads `in` and `rwidth`. -/
def readDecRaw (req : Request) : Except Refusal (Bytes × Nat) := do
  let b ← readSlot .input req.input
  let n ← readRawWidth req
  .ok (b, n)

/-- VAL.ENC.RAW reads `rawval` and `rwidth`. -/
def readEncRaw (req : Request) : Except Refusal (Bytes × Nat) := do
  let b ← readSlot .rawval req.rawval
  let n ← readRawWidth req
  .ok (b, n)

end Sys2Proof.Machine
end

