-- ==== Sys2Proof/Machine/Integer.lean ====
section
/-! DEFINITION. The integer value family (41_value_int.md): VAL.DEC.U, VAL.ENC.U, VAL.DEC.S and VAL.ENC.S. -/

namespace Sys2Proof.Machine

/-- R90: a value decode compares the input length with the declared width first. -/
def lengthChecked (width : Nat) (b : Bytes) (value : Response) : Response :=
  if b.length ≠ width then raiseError .lengthMismatch else value

/-- The bytes of an integer of the unsigned range of the width (R92); outside it the value is not representable. -/
def encodeUnsigned (w : Width) (v : Int) : Response :=
  if v < 0 ∨ v ≥ 2 ^ (8 * w.bytes) then raiseError .unrepresentable
  else { status := some .ok, out := some (toBe w.bytes v.toNat) }

/-- The bytes of an integer of the signed range of the width (R94), in two's complement. -/
def encodeSigned (w : Width) (v : Int) : Response :=
  if v < -2 ^ (8 * w.bytes - 1) ∨ v ≥ 2 ^ (8 * w.bytes - 1) then raiseError .unrepresentable
  else { status := some .ok, out := some (toBe w.bytes (twos w.bytes v)) }

/-- The bytes of an integer under a signedness (R92, R94, R107). -/
def encodeInteger (sg : Signedness) (w : Width) (v : Int) : Response :=
  match sg with
  | .unsigned => encodeUnsigned w v
  | .signed => encodeSigned w v

/-- The integer that `w` bytes hold under a signedness (R91, R93, R106). -/
def underlying (sg : Signedness) (w : Width) (b : Bytes) : Int :=
  match sg with
  | .unsigned => (beNat b : Int)
  | .signed => sext w.bytes (beNat b)

/-- VAL.DEC.U (R91) and VAL.DEC.S (R93). -/
def decodeInteger (sg : Signedness) (w : Width) (b : Bytes) : Response :=
  lengthChecked w.bytes b { status := some .ok, ival := some (underlying sg w b) }

/-- The meaning of VAL.DEC.U (R91). -/
def execValDecU (w : Width) (s : State) : Result := s.conclude ((readInput s.req).map (decodeInteger .unsigned w))

/-- The meaning of VAL.ENC.U (R92). -/
def execValEncU (w : Width) (s : State) : Result := s.conclude ((readIval s.req).map (encodeInteger .unsigned w))

/-- The meaning of VAL.DEC.S (R93). -/
def execValDecS (w : Width) (s : State) : Result := s.conclude ((readInput s.req).map (decodeInteger .signed w))

/-- The meaning of VAL.ENC.S (R94). -/
def execValEncS (w : Width) (s : State) : Result := s.conclude ((readIval s.req).map (encodeInteger .signed w))

end Sys2Proof.Machine
end

