-- ==== Sys2Proof/Machine/BitField.lean ====
section
/-! DEFINITION. The BitField family (42_value_fixed_bitfield_raw.md R114 to R120): VAL.DEC.BF and VAL.ENC.BF. -/

namespace Sys2Proof.Machine

/-- The names of the labels whose bit is set in `u` (R114, R116). -/
def activeNames (labels : List Label) (u : Nat) : List LabelName :=
  nameSet ((labels.filter fun l => u.testBit l.bit).map Label.name)

/-- VAL.DEC.BF (R114). -/
def decodeBits (w : Width) (b : Bytes) (labels : List Label) : Response :=
  let u := beNat b
  lengthChecked w.bytes b
    { status := some .ok, ival := some (u : Int), names := some (activeNames labels u),
      unlabelled := some (andNot u (labelMask labels)) }

/-- Whether a name has a label (R115). -/
def hasLabel (labels : List Label) (n : LabelName) : Bool := labels.any fun l => decide (l.name = n)

/-- VAL.ENC.BF (R115). -/
def encodeBits (w : Width) (names : List LabelName) (labels : List Label) : Response :=
  if names.all (hasLabel labels) then
    { status := some .ok,
      out := some (toBe w.bytes (labelMask (labels.filter fun l => decide (l.name ∈ names)))) }
  else raiseError .unrepresentable

/-- The meaning of VAL.DEC.BF (R114). -/
def execValDecBf (w : Width) (s : State) : Result :=
  s.conclude ((readDecBf w s.req).map fun (b, labels) => decodeBits w b labels)

/-- The meaning of VAL.ENC.BF (R115). -/
def execValEncBf (w : Width) (s : State) : Result :=
  s.conclude ((readEncBf w s.req).map fun (names, labels) => encodeBits w names labels)

end Sys2Proof.Machine
end

