-- ==== Sys2Proof/Machine/FixedPoint.lean ====
section
/-! DEFINITION. The FixedPoint family (42_value_fixed_bitfield_raw.md R105 to R113): VAL.DEC.FX and VAL.ENC.FX. Values are
exact rationals (R105). -/

namespace Sys2Proof.Machine

/-- VAL.DEC.FX (R106). -/
def decodeFixed (sg : Signedness) (w : Width) (b : Bytes) (scale : Nat) : Response :=
  let raw := underlying sg w b
  lengthChecked w.bytes b { status := some .ok, ival := some raw, qval := some (overScale raw scale) }

/-- VAL.ENC.FX (R107): round first, then check the range of the rounded integer (R109). -/
def encodeFixed (sg : Signedness) (w : Width) (q : Rat) (scale : Nat) : Response :=
  encodeInteger sg w (roundHaz (timesScale q scale))

/-- The meaning of VAL.DEC.FX (R106). -/
def execValDecFx (sg : Signedness) (w : Width) (s : State) : Result :=
  s.conclude ((readDecFx s.cfg s.req).map fun (b, scale) => decodeFixed sg w b scale)

/-- The meaning of VAL.ENC.FX (R107). -/
def execValEncFx (sg : Signedness) (w : Width) (s : State) : Result :=
  s.conclude ((readEncFx s.cfg s.req).map fun (q, scale) => encodeFixed sg w q scale)

end Sys2Proof.Machine
end

