-- ==== Sys2Proof/Machine/Frame.lean ====
section
/-! DEFINITION. The Frame family (40_frame.md): FRM.CSUM, FRM.ENC, FRM.DEC and FRM.HUNT. Each operation is a function
from its operands and the configuration to its response (10_state.md R23), and a meaning that reads the operands and
writes the response. -/

namespace Sys2Proof.Machine

/-- FRM.CSUM (R72). -/
def frmCsum (b : Bytes) : Response := { status := some .ok, csum := some (csum b) }

/-- The header of a frame (R50): start byte, protocol byte, command type, address high, address low, length. -/
def frameHeader (cfg : Config) (ct : CommandType) (addr len : Nat) : Bytes :=
  [cfg.startByte, cfg.protocolByte, cfg.code ct, BitVec.ofNat 8 (addr / 256), BitVec.ofNat 8 (addr % 256),
    BitVec.ofNat 8 len]

/-- The bytes of a frame (R50, R73): header, payload and the checksum of both. -/
def frameBytes (cfg : Config) (ct : CommandType) (addr len : Nat) (payload : Bytes) : Bytes :=
  let body := frameHeader cfg ct addr len ++ payload
  body ++ [csum body]

/-- FRM.ENC (R73). -/
def frmEnc (cfg : Config) (ct : CommandType) (addr len : Nat) (payload : Bytes) : Response :=
  { status := some .ok, out := some (frameBytes cfg ct addr len payload) }

/-- The Frame record that the bytes of `b` hold (R75), its command type already recognised. -/
def parsedFrame (b : Bytes) (ct : CommandType) : Frame where
  startByte := byteAt b 0
  protocolByte := byteAt b 1
  commandType := ct
  address := (byteAt b 3).toNat * 256 + (byteAt b 4).toNat
  length := (byteAt b 5).toNat
  payload := (b.drop 6).take (byteAt b 5).toNat
  checksum := byteAt b (6 + (byteAt b 5).toNat)

/-- FRM.DEC (R75). The checks run in the order of R79, and the first that fails decides the status. -/
def frmDec (cfg : Config) (b : Bytes) : Response :=
  if b.length < 6 then raiseError .truncated
  else
    let len := (byteAt b 5).toNat
    if b.length < 7 + len then raiseError .truncated
    else if byteAt b (6 + len) ≠ csum (b.take (6 + len)) then raiseError .badChecksum
    else match cfg.ctOf (byteAt b 2) with
      | none => raiseError .unknownCommandType
      | some ct => { status := some .ok, frame := some (parsedFrame b ct), consumed := some (7 + len) }

/-- The scan of R85: the number of bytes before the first start byte, of which at most `window` are discarded. -/
def huntFrom (start : Byte) : Bytes → Nat → Option Nat
  | [], _ => none
  | b :: bs, window =>
    if b = start then some 0
    else match window with
      | 0 => none
      | left + 1 => (huntFrom start bs left).map (· + 1)

/-- FRM.HUNT (R85). -/
def frmHunt (cfg : Config) (b : Bytes) : Response :=
  match huntFrom cfg.startByte b cfg.scanWindow with
  | some k => { status := some .ok, skip := some k }
  | none => raiseError .truncated

/-- The meaning of FRM.CSUM (R72). -/
def execFrmCsum (s : State) : Result := s.conclude ((readInput s.req).map frmCsum)

/-- The meaning of FRM.ENC (R73). -/
def execFrmEnc (s : State) : Result :=
  s.conclude ((readFrmEnc s.req).map fun (ct, addr, len, payload) => frmEnc s.cfg ct addr len payload)

/-- The meaning of FRM.DEC (R75). -/
def execFrmDec (s : State) : Result := s.conclude ((readInput s.req).map (frmDec s.cfg))

/-- The meaning of FRM.HUNT (R85). -/
def execFrmHunt (s : State) : Result := s.conclude ((readInput s.req).map (frmHunt s.cfg))

end Sys2Proof.Machine
end

