-- ==== Sys2Proof/Machine/Raw.lean ====
section
/-! DEFINITION. The Raw family (42_value_fixed_bitfield_raw.md R121 to R124): VAL.DEC.RAW and VAL.ENC.RAW. -/

namespace Sys2Proof.Machine

/-- VAL.DEC.RAW (R121) and VAL.ENC.RAW (R122): the bytes pass through unchanged. -/
def passRaw (b : Bytes) (width : Nat) : Response :=
  lengthChecked width b { status := some .ok, out := some b }

/-- The meaning of VAL.DEC.RAW (R121). -/
def execValDecRaw (s : State) : Result := s.conclude ((readDecRaw s.req).map fun (b, n) => passRaw b n)

/-- The meaning of VAL.ENC.RAW (R122). -/
def execValEncRaw (s : State) : Result := s.conclude ((readEncRaw s.req).map fun (b, n) => passRaw b n)

end Sys2Proof.Machine
end

