-- ==== Sys2Proof/Machine/Dispatch.lean ====
section
/-! DEFINITION. One arm per operation of 30_encoding.md R61. -/

namespace Sys2Proof.Machine

def exec (i : Instr) (s : State) : Host.Outcome State Fault Refusal :=
  match i with
  | .frmEnc => Sys2Proof.Machine.execFrmEnc s
  | .frmDec => Sys2Proof.Machine.execFrmDec s
  | .frmCsum => Sys2Proof.Machine.execFrmCsum s
  | .frmHunt => Sys2Proof.Machine.execFrmHunt s
  | .valDecU w => Sys2Proof.Machine.execValDecU w s
  | .valEncU w => Sys2Proof.Machine.execValEncU w s
  | .valDecS w => Sys2Proof.Machine.execValDecS w s
  | .valEncS w => Sys2Proof.Machine.execValEncS w s
  | .valDecFx sg w => Sys2Proof.Machine.execValDecFx sg w s
  | .valEncFx sg w => Sys2Proof.Machine.execValEncFx sg w s
  | .valDecBf w => Sys2Proof.Machine.execValDecBf w s
  | .valEncBf w => Sys2Proof.Machine.execValEncBf w s
  | .valDecRaw => Sys2Proof.Machine.execValDecRaw s
  | .valEncRaw => Sys2Proof.Machine.execValEncRaw s

end Sys2Proof.Machine
end

