-- ==== Sys2Proof/Machine/Step.lean ====
section
/-! DEFINITION. One step of the block (10_state.md R20): the operation that is in flight, whole. -/

namespace Sys2Proof.Machine

/-- The operation that an issued request asks for: its `opc`, present and of its type (R65 item 10), decoded
(R65 items 1 to 5). -/
def fetch (req : Request) : Except Refusal Instr :=
  match readSlot .opc req.opc with
  | .error e => .error e
  | .ok o =>
    match decodeOpc o with
    | .ok i => .ok i
    | .error e => .error (.opcode e)

/-- One atomic step: the operation in flight runs and its response is complete (R20, R44). With nothing in flight the
block is idle and a step changes nothing (R147; log 6). -/
def step (s : State) : Host.Outcome State Fault Refusal :=
  match s.inFlight with
  | false => .next s
  | true =>
    match fetch s.req with
    | .ok i => exec i s
    | .error e => .refused e

/-- A slot that holds a value keeps it; one that does not gets the value given. -/
def fillSlot {α : Type} (f : Slot α) (a : α) : Slot α :=
  match f with
  | .val v => .val v
  | .noValue => .val a
  | .wrongType => .val a

/-- A request with every operand present: a field that holds no value of its type gets zero, the empty sequence, set or
list, ReadRequest, or, where zero is refused (R65 items 7 and 9), one. -/
def fillOperands (req : Request) : Request where
  opc := req.opc
  ct := fillSlot req.ct .readRequest
  addr := fillSlot req.addr 0
  len := fillSlot req.len 0
  payload := fillSlot req.payload []
  input := fillSlot req.input []
  scale := fillSlot req.scale 1
  labels := fillSlot req.labels []
  rwidth := fillSlot req.rwidth 1
  ival := fillSlot req.ival 0
  qval := fillSlot req.qval 0
  names := fillSlot req.names []
  rawval := fillSlot req.rawval []

/-- `s` with the operation whose code is `w` issued, so that the next step runs it. The block fetches no instruction
from a memory (R48): the request record is where a step finds it, so `opc` is written, the operands that hold no value
are filled in, and the request is in flight (log 7). -/
def State.withFetchWord (s : State) (nbits w : Nat) : State :=
  { s with
    req := { fillOperands s.req with opc := .val (BitVec.ofNat 8 (w % 2 ^ nbits)) }
    inFlight := true }

end Sys2Proof.Machine
end

