-- ==== Sys2Proof/Machine/Programs.lean ====
section
/-! DEFINITION. What a host does with the block: the requests of the assembler syntax (30_encoding.md R67), the requests a
value type asks for (10_state.md R21), running requests one at a time (R24, R45), the pseudo-operations of R69, several
links (R33), and the test configuration TC1 (00_scope.md R9), which the model itself never uses. -/

namespace Sys2Proof.Machine

/-! The requests of R67: the `opc` byte of R68 and the operands the line names. No other field has a value. -/

namespace Asm

def frmEnc (ct : CommandType) (addr len : Nat) (payload : Bytes) : Request :=
  { opc := .val (encode .frmEnc), ct := .val ct, addr := .val addr, len := .val len, payload := .val payload }

def frmDec (b : Bytes) : Request := { opc := .val (encode .frmDec), input := .val b }

def frmCsum (b : Bytes) : Request := { opc := .val (encode .frmCsum), input := .val b }

def frmHunt (b : Bytes) : Request := { opc := .val (encode .frmHunt), input := .val b }

def valDecU (w : Width) (b : Bytes) : Request := { opc := .val (encode (.valDecU w)), input := .val b }

def valEncU (w : Width) (v : Int) : Request := { opc := .val (encode (.valEncU w)), ival := .val v }

def valDecS (w : Width) (b : Bytes) : Request := { opc := .val (encode (.valDecS w)), input := .val b }

def valEncS (w : Width) (v : Int) : Request := { opc := .val (encode (.valEncS w)), ival := .val v }

def valDecFx (sg : Signedness) (w : Width) (scale : Nat) (b : Bytes) : Request :=
  { opc := .val (encode (.valDecFx sg w)), scale := .val scale, input := .val b }

def valEncFx (sg : Signedness) (w : Width) (scale : Nat) (q : Rat) : Request :=
  { opc := .val (encode (.valEncFx sg w)), scale := .val scale, qval := .val q }

def valDecBf (w : Width) (labels : List Label) (b : Bytes) : Request :=
  { opc := .val (encode (.valDecBf w)), labels := .val labels, input := .val b }

def valEncBf (w : Width) (labels : List Label) (names : List LabelName) : Request :=
  { opc := .val (encode (.valEncBf w)), labels := .val labels, names := .val names }

def valDecRaw (n : Nat) (b : Bytes) : Request :=
  { opc := .val (encode .valDecRaw), rwidth := .val n, input := .val b }

def valEncRaw (n : Nat) (b : Bytes) : Request :=
  { opc := .val (encode .valEncRaw), rwidth := .val n, rawval := .val b }

end Asm

/-! The requests of a value type (R21): its tag and width select `opc`, its scale becomes `scale`, its labels become
`labels` and a Raw width becomes `rwidth`. Which S a FixedPoint descriptor means is the host's to say (D18). -/

/-- The request that decodes a payload as a value of the type. -/
def decodeRequest (t : ValueType) (sg : Signedness) (b : Bytes) : Request :=
  match t with
  | .unsignedInt w => Asm.valDecU w b
  | .signedInt w => Asm.valDecS w b
  | .fixedPoint w scale => Asm.valDecFx sg w scale b
  | .bitField w labels => Asm.valDecBf w labels b
  | .raw width => Asm.valDecRaw width b

/-- A value as an integer operand; any other value is of the wrong type (R65 item 10). -/
def Value.asInt : Value → Slot Int
  | .int v => .val v
  | .rat _ => .wrongType
  | .names _ => .wrongType
  | .bytes _ => .wrongType

/-- A value as a rational operand. An integer is a rational (DEDUCED, log 14). -/
def Value.asRat : Value → Slot Rat
  | .int v => .val (mkRat v 1)
  | .rat q => .val q
  | .names _ => .wrongType
  | .bytes _ => .wrongType

/-- A value as a set of names. -/
def Value.asNames : Value → Slot (List LabelName)
  | .int _ => .wrongType
  | .rat _ => .wrongType
  | .names ns => .val ns
  | .bytes _ => .wrongType

/-- A value as a byte sequence. -/
def Value.asBytes : Value → Slot Bytes
  | .int _ => .wrongType
  | .rat _ => .wrongType
  | .names _ => .wrongType
  | .bytes b => .val b

/-- The request that encodes a value of the type. -/
def encodeRequest (t : ValueType) (sg : Signedness) (v : Value) : Request :=
  match t with
  | .unsignedInt w => { opc := .val (encode (.valEncU w)), ival := Value.asInt v }
  | .signedInt w => { opc := .val (encode (.valEncS w)), ival := Value.asInt v }
  | .fixedPoint w scale =>
    { opc := .val (encode (.valEncFx sg w)), scale := .val scale, qval := Value.asRat v }
  | .bitField w labels =>
    { opc := .val (encode (.valEncBf w)), labels := .val labels, names := Value.asNames v }
  | .raw width => { opc := .val (encode .valEncRaw), rwidth := .val width, rawval := Value.asBytes v }

/-! Running requests. -/

/-- The host issues one request and the block performs it. -/
def perform (r : Request) (s : State) : Result :=
  match s.issue r with
  | .next t => step t
  | .fault f => .fault f
  | .refused e => .refused e

/-- A host program without branches: its requests, one at a time, in order (R24, R45). -/
def runRequests : List Request → State → Result
  | [], s => .next s
  | r :: rs, s =>
    match perform r s with
    | .next t => runRequests rs t
    | .fault f => .fault f
    | .refused e => .refused e

/-- One request and the response it got. -/
structure Exchange where
  request : Request
  response : Response
deriving DecidableEq, Repr

/-- What the host has seen of a program's run, up to its first stop. -/
def transcript : List Request → State → List Exchange
  | [], _ => []
  | r :: rs, s =>
    match perform r s with
    | .next t => { request := r, response := t.rsp } :: transcript rs t
    | .fault _ => []
    | .refused _ => []

/-- `FRM.RECV` (R69): hunt, and decode from the start byte the hunt found. -/
def frmRecv (b : Bytes) (s : State) : Result :=
  match perform (Asm.frmHunt b) s with
  | .next t =>
    match t.rsp.status, t.rsp.skip with
    | some .ok, some k => perform (Asm.frmDec (b.drop k)) t
    | _, _ => .next t
  | .fault f => .fault f
  | .refused e => .refused e

/-- `FRM.PUT.<T>` (R69): encode a value and build the frame that carries it; no frame where the encode fails. -/
def frmPut (t : ValueType) (sg : Signedness) (v : Value) (ct : CommandType) (addr : Nat) (s : State) : Result :=
  match perform (encodeRequest t sg v) s with
  | .next u =>
    match u.rsp.status, u.rsp.out with
    | some .ok, some out => perform (Asm.frmEnc ct addr out.length out) u
    | _, _ => .next u
  | .fault f => .fault f
  | .refused e => .refused e

/-! Several links (R33, R145): one independent block each, nothing shared. One block steps at a time (DESIGN CHOICE,
log 13). -/

/-- One step of the block of link `k`. Where that block refuses its request, the whole system is refused: the model says
nothing of what the refusal leaves of the other links' blocks (DESIGN CHOICE, log 13; the spec says nothing of what follows a
refusal). -/
def stepLink (k : Nat) (links : List State) : Host.Outcome (List State) Fault Refusal :=
  match links[k]? with
  | none => .next links
  | some s =>
    match step s with
    | .next t => .next (links.set k t)
    | .fault f => .fault f
    | .refused e => .refused e

/-- Test configuration TC1 (R9): the spec's own choice for its vectors, not a property of the hardware. Only tests and
closed examples name it. -/
def tc1Params : ConfigParams where
  startByte := 0x41
  protocolByte := 0x01
  ctReadRequest := 0x01
  ctReadResponse := 0x02
  ctWriteRequest := 0x03
  ctWriteResponse := 0x04
  ctError := 0x0F
  scanWindow := 4
  scaleMax := .unbounded

/-- TC1, checked. -/
def tc1 : Config := { tc1Params with }

end Sys2Proof.Machine
end

