-- ==== Sys2Proof/Safety.lean ====
section
/-! DEFINITION. What counts as a safe state and a safe run: the invariants of 10_state.md R29, R32 and 40_frame.md R76, the
states a host can bring the block into, and the host's duty of 70_reset_and_hazards.md R160. -/

namespace Sys2Proof.Machine

/-! The spec's own expressions, as claims write them. The model computes the same values its own way. -/

/-- `be_N(b)` of R13, as the sum over the bytes that R13 writes. -/
def beSum (b : Bytes) : Nat := ∑ i ∈ Finset.range b.length, (b.getD i 0).toNat * 256 ^ (b.length - 1 - i)

/-- `Σ b[i]` of R71. -/
def byteTotal (b : Bytes) : Nat := (b.map BitVec.toNat).sum

/-- `round_haz(x)` of R14: `sign(x) · floor(|x| + 1/2)`. -/
def roundHalfAway (x : ℚ) : ℤ := (if x < 0 then -1 else 1) * ⌊|x| + 1 / 2⌋

/-- The signed reading of an `8N`-bit number (`sext_N` of R13). -/
def signedReading (n u : Nat) : Int := if u < 2 ^ (8 * n - 1) then (u : Int) else (u : Int) - 2 ^ (8 * n)

/-- The underlying integer of a FixedPoint payload (R106): signed or unsigned as S says. -/
def signedOrUnsigned (sg : Signedness) (n u : Nat) : Int :=
  match sg with
  | .unsigned => (u : Int)
  | .signed => signedReading n u

/-- The range of the integers a width holds under a signedness (R95). -/
def inWidthRange (sg : Signedness) (n : Nat) (v : Int) : Prop :=
  match sg with
  | .unsigned => 0 ≤ v ∧ v < 2 ^ (8 * n)
  | .signed => -2 ^ (8 * n - 1) ≤ v ∧ v < 2 ^ (8 * n - 1)

/-- The integer decode of a signedness: VAL.DEC.U or VAL.DEC.S. -/
def intDecode (sg : Signedness) (w : Width) : Instr :=
  match sg with
  | .unsigned => .valDecU w
  | .signed => .valDecS w

/-- The integer encode of a signedness: VAL.ENC.U or VAL.ENC.S. -/
def intEncode (sg : Signedness) (w : Width) : Instr :=
  match sg with
  | .unsigned => .valEncU w
  | .signed => .valEncS w

/-! R65, written out. -/

/-- Item 10: the operand is missing or has the wrong type. -/
abbrev Slot.absent {α : Type} (f : Slot α) : Prop := ∀ a, f ≠ .val a

/-- Items 1 to 5, on the fields OP, RSV, S and WC of R60. -/
def illFormedOpcode (o : Opc) : Prop :=
  let op := o.toNat / 16
  let wc := o.toNat % 4
  (op = 0xE ∨ op = 0xF) ∨
  o.getLsbD 3 = true ∨
  (o.getLsbD 2 = true ∧ op ≠ 0x8 ∧ op ≠ 0x9) ∨
  (wc ≠ 0 ∧ (op ≤ 0x3 ∨ op = 0xC ∨ op = 0xD)) ∨
  (wc = 3 ∧ 0x4 ≤ op ∧ op ≤ 0xB)

/-- Items 6 to 10, on OP, on the width `w` that WC selects and on the operands. That `ct` is one of the five command types
(item 6) is its type, so a `ct` that is not falls under item 10. -/
def illFormedOperands (cfg : Config) (req : Request) (op w : Nat) : Prop :=
  -- item 6
  (op = 0x0 ∧ ∃ addr len payload, req.addr = .val addr ∧ req.len = .val len ∧ req.payload = .val payload ∧
    (len ≠ payload.length ∨ payload.length > 255 ∨ addr ≥ 2 ^ 16)) ∨
  -- item 7
  ((op = 0x8 ∨ op = 0x9) ∧ ∃ scale, req.scale = .val scale ∧
    (scale < 1 ∨ ∃ top, cfg.scaleMax = .atMost top ∧ scale > top)) ∨
  -- item 8
  ((op = 0xA ∨ op = 0xB) ∧ ∃ labels, req.labels = .val labels ∧
    (¬ (labels.map Label.name).Nodup ∨ ¬ (labels.map Label.bit).Nodup ∨ ∃ l ∈ labels, l.bit ≥ 8 * w)) ∨
  -- item 9
  ((op = 0xC ∨ op = 0xD) ∧ ∃ n, req.rwidth = .val n ∧ (n < 1 ∨ n > 255)) ∨
  -- item 10
  (op = 0x0 ∧ (Slot.absent req.ct ∨ Slot.absent req.addr ∨ Slot.absent req.len ∨ Slot.absent req.payload)) ∨
  ((op = 0x1 ∨ op = 0x2 ∨ op = 0x3 ∨ op = 0x4 ∨ op = 0x6 ∨ op = 0x8 ∨ op = 0xA ∨ op = 0xC) ∧
    Slot.absent req.input) ∨
  ((op = 0x5 ∨ op = 0x7) ∧ Slot.absent req.ival) ∨
  ((op = 0x8 ∨ op = 0x9) ∧ Slot.absent req.scale) ∨
  (op = 0x9 ∧ Slot.absent req.qval) ∨
  ((op = 0xA ∨ op = 0xB) ∧ Slot.absent req.labels) ∨
  (op = 0xB ∧ Slot.absent req.names) ∨
  ((op = 0xC ∨ op = 0xD) ∧ Slot.absent req.rwidth) ∨
  (op = 0xD ∧ Slot.absent req.rawval)

/-- A request that one of the ten items of R65 makes ill-formed. The width is `2 ^ WC` (R62). -/
def illFormed (cfg : Config) (req : Request) : Prop :=
  Slot.absent req.opc ∨
  ∃ o : Opc, req.opc = .val o ∧
    (illFormedOpcode o ∨ illFormedOperands cfg req (o.toNat / 16) (2 ^ (o.toNat % 4)))

/-! R22 and R32, written out. -/

/-- A response field holds a value, which a read gives, exactly where it is said to be written; elsewhere it holds none
and a read faults. -/
abbrev writtenExactly {α : Type} (field : ResponseField) (value : Option α) (read : Except Fault α) (written : Prop) :
    Prop :=
  (written → ∃ a, value = some a ∧ read = .ok a) ∧ (¬ written → value = none ∧ read = .error (.noValue field))

/-- A read that gives no value. -/
abbrev readFaults {α : Type} (read : Except Fault α) : Prop := ∃ e, read = .error e

/-- R151: no response field can be read. -/
abbrev everyReadFaults (s : State) : Prop :=
  readFaults s.readStatus ∧ readFaults s.readOut ∧ readFaults s.readFrame ∧ readFaults s.readConsumed ∧
  readFaults s.readCsum ∧ readFaults s.readSkip ∧ readFaults s.readIval ∧ readFaults s.readQval ∧
  readFaults s.readNames ∧ readFaults s.readUnlabelled

/-! Invariants. -/

/-- The Frame record's ranges and invariants (R29, R76): the checksum is that of the six header bytes, written as the
record's fields give them, and the payload. `ctByte` is the command-type byte. -/
abbrev Frame.wf (cfg : Config) (f : Frame) : Prop :=
  f.address < 2 ^ 16 ∧ f.length = f.payload.length ∧ f.length < 2 ^ 8 ∧
  f.checksum = csum ([f.startByte, f.protocolByte, cfg.code f.commandType, BitVec.ofNat 8 (f.address / 256),
    BitVec.ofNat 8 (f.address % 256), BitVec.ofNat 8 f.length] ++ f.payload)

/-- No field but `status` holds a value (R132). -/
abbrev Response.bare (r : Response) : Prop := r = { status := r.status }

/-- A response the block can have left (R22, R32, R76, R132): a response that is not OK holds nothing but its status; a
frame is well-formed and comes with its length in `consumed`; `names` is written as a set. -/
abbrev Response.wf (cfg : Config) (r : Response) : Prop :=
  (r.status ≠ some .ok → Response.bare r) ∧
  (∀ f, r.frame = some f → Frame.wf cfg f ∧ r.consumed = some (7 + f.length)) ∧
  (r.frame = none → r.consumed = none) ∧
  (∀ ns, r.names = some ns → ns.Pairwise (· < ·))

/-- R45: the response record holds the response to the request record, that is, to the request last issued. -/
abbrev State.answered (s : State) : Prop := ∃ i t, fetch s.req = .ok i ∧ exec i s = .next t ∧ t.rsp = s.rsp

/-- The invariant of the block: its response record is one an operation can have left, or the empty one of reset; and with
nothing in flight, a response that is not empty is the one to the request last issued. -/
abbrev State.inv (s : State) : Prop := Response.wf s.cfg s.rsp ∧ (s.inFlight = false → s.rsp = {} ∨ s.answered)

/-- The states a host can bring the block into. -/
inductive Reachable : State → Prop where
  | reset : Reachable State.reset
  | boot (p : ConfigParams) (t : State) (h : boot p = .next t) : Reachable t
  | issue (s t : State) (r : Request) (hs : Reachable s) (h : s.issue r = .next t) : Reachable t
  | step (s t : State) (hs : Reachable s) (h : step s = .next t) : Reachable t
  | hostReset (s : State) (hs : Reachable s) : Reachable s.hostReset

/-- A safe step: it neither faults nor is refused. -/
abbrev State.stepsOn (s : State) : Prop := ∃ t, step s = .next t

/-- The VAL.DEC.* operations (R160). -/
def Instr.isValueDecode : Instr → Bool
  | .frmEnc => false
  | .frmDec => false
  | .frmCsum => false
  | .frmHunt => false
  | .valDecU _ => true
  | .valEncU _ => false
  | .valDecS _ => true
  | .valEncS _ => false
  | .valDecFx _ _ => true
  | .valEncFx _ _ => false
  | .valDecBf _ => true
  | .valEncBf _ => false
  | .valDecRaw => true
  | .valEncRaw => false

/-- Whether a request value-decodes one of the payloads. -/
def decodesOneOf (payloads : List Bytes) (r : Request) : Bool :=
  match fetch r with
  | .ok i => Instr.isValueDecode i && payloads.any fun b => decide (r.input = .val b)
  | .error _ => false

/-- The payloads of the Error frames that an exchange decoded. -/
def errorPayloads (e : Exchange) : List Bytes :=
  match e.response.frame with
  | some f => if f.commandType = .error then [f.payload] else []
  | none => []

/-- R80, R160: whether the host breaks its duty somewhere in a transcript, `payloads` being those of all the Error frames
decoded before it. -/
def breaksDutyFrom (payloads : List Bytes) : List Exchange → Bool
  | [] => false
  | e :: es => decodesOneOf payloads e.request || breaksDutyFrom (errorPayloads e ++ payloads) es

/-- R160: a host program that value-decodes an Error frame's payload is flagged, however many requests stand between. What
counts as that payload is the model's reading (DESIGN CHOICE, log 12): the bytes of the payload of any Error frame that the
program has decoded before. -/
def breaksErrorFrameDuty (es : List Exchange) : Bool := breaksDutyFrom [] es

end Sys2Proof.Machine
end

