-- ==== Sys2Proof/Certificates/Slice0/Obligations.lean ====
section
/-! DEFINITION. The statements for the provers. Each docstring names the rule of spec/ that its statement formalises. -/

open Sys2Proof Sys2Proof.Machine

/-! ## The operation code -/

/-- R68: the `opc` byte of an operation, with the rule's four spellings. -/
def Obligations.OpcodeIsOpSignAndWidth : Prop :=
  (∀ i : Instr, (encode i).toNat = i.op * 16 + i.sBit * 4 + i.wc) ∧
  encode (.valDecFx .signed .w2) = 0x85 ∧ encode (.valEncU .w4) = 0x52 ∧ encode .frmDec = 0x10 ∧
  encode .valDecRaw = 0xC0

/-- R60 to R63: words of every row of the opcode map, written out from the fields OP, RSV, S and WC. -/
def Obligations.EveryTableRowDecodes : Prop :=
  decodeOpc 0b00000000 = .ok .frmEnc ∧ decodeOpc 0b00010000 = .ok .frmDec ∧
  decodeOpc 0b00100000 = .ok .frmCsum ∧ decodeOpc 0b00110000 = .ok .frmHunt ∧
  decodeOpc 0b01000001 = .ok (.valDecU .w2) ∧ decodeOpc 0b01010010 = .ok (.valEncU .w4) ∧
  decodeOpc 0b01100000 = .ok (.valDecS .w1) ∧ decodeOpc 0b01110010 = .ok (.valEncS .w4) ∧
  decodeOpc 0b10000101 = .ok (.valDecFx .signed .w2) ∧ decodeOpc 0b10010001 = .ok (.valEncFx .unsigned .w2) ∧
  decodeOpc 0b10010110 = .ok (.valEncFx .signed .w4) ∧ decodeOpc 0b10100001 = .ok (.valDecBf .w2) ∧
  decodeOpc 0b10110000 = .ok (.valEncBf .w1) ∧ decodeOpc 0b11000000 = .ok .valDecRaw ∧
  decodeOpc 0b11010000 = .ok .valEncRaw

/-- R60, R68: decoding an encoded operation gives it back, an `opc` byte that decodes is the encoding of what it decodes to,
so every legal byte has one meaning, and a step on an encoded operation in flight is that operation. -/
def Obligations.DecodeAndEncodeAgree : Prop :=
  (∀ i : Instr, decodeOpc (encode i) = .ok i) ∧ (∀ (o : Opc) (i : Instr), decodeOpc o = .ok i → encode i = o) ∧
  (∀ (i : Instr) (s : State), s.inFlight = true → s.req.opc = .val (encode i) → step s = exec i s)

/-- R65, its ten items written out (`illFormed` in Safety.lean): a step refuses the request in flight exactly where one of
the items holds, and completes otherwise. R135: a refused request gets no response. -/
def Obligations.ARequestIsRefusedExactlyWhereIllFormed : Prop :=
  ∀ s : State, s.inFlight = true →
    (illFormed s.cfg s.req → ∃ e, step s = .refused e) ∧ (¬ illFormed s.cfg s.req → ∃ t, step s = .next t)

/-- R20, R61: a step runs the operation that the request in flight asks for. -/
def Obligations.StepRunsTheDecodedOperation : Prop :=
  ∀ (s : State) (o : Opc) (i : Instr), s.inFlight = true → s.req.opc = .val o → decodeOpc o = .ok i →
    step s = exec i s

/-- R147 and the model's choice of log 6: with no request in flight the block is idle, and a step changes nothing. -/
def Obligations.StepWithNothingInFlightIsIdle : Prop :=
  ∀ s : State, s.inFlight = false → step s = .next s

/-- The model's convention of log 7: storing a table word where the step finds its next operation makes the next step run
that operation, and from reset that step completes. -/
def Obligations.StoredTableWordIsRunNext : Prop :=
  ∀ (w : Nat) (i : Instr), decodeTableWord 8 w = some i →
    (∀ s : State, step (s.withFetchWord 8 w) = exec i (s.withFetchWord 8 w)) ∧
    ∃ t, step (State.reset.withFetchWord 8 w) = .next t

/-! ## The frame operations -/

/-- R71, R72: the checksum of a byte sequence, and FRM.CSUM on every input. -/
def Obligations.FrmCsumResult : Prop :=
  decodeOpc 0x20 = .ok .frmCsum ∧
  (∀ b : Bytes, (csum b).toNat = byteTotal b % 256) ∧ csum [] = 0 ∧
  (∀ (s : State) (b : Bytes), s.req.input = .val b →
    exec .frmCsum s = .next { s with
      rsp := { status := some .ok, csum := some (BitVec.ofNat 8 (byteTotal b % 256)) }, inFlight := false }) ∧
  csum [0xFF, 0x01] = 0x00 ∧ csum [0xFF, 0xFF, 0xFF] = 0xFD ∧
  csum [0x41, 0x01, 0x02, 0x63, 0x04, 0x02, 0x00, 0xD2] = 0x7F

/-- R16, R53: the five codes of the configuration, and `ct_of` as their inverse. -/
def Obligations.CommandTypeCodes : Prop :=
  ∀ cfg : Config,
    cfg.code .readRequest = cfg.ctReadRequest ∧ cfg.code .readResponse = cfg.ctReadResponse ∧
    cfg.code .writeRequest = cfg.ctWriteRequest ∧ cfg.code .writeResponse = cfg.ctWriteResponse ∧
    cfg.code .error = cfg.ctError ∧
    ∀ (x : Byte) (ct : CommandType), cfg.ctOf x = some ct ↔ cfg.code ct = x

/-- R73: FRM.ENC on every well-formed request; any other request is refused. -/
def Obligations.FrmEncResult : Prop :=
  decodeOpc 0x00 = .ok .frmEnc ∧
  (∀ (s : State) (ct : CommandType) (addr len : Nat) (payload : Bytes),
    s.req.ct = .val ct → s.req.addr = .val addr → s.req.len = .val len → s.req.payload = .val payload →
    len = payload.length → payload.length ≤ 255 → addr < 2 ^ 16 →
    ∃ body : Bytes,
      body = [s.cfg.startByte, s.cfg.protocolByte, s.cfg.code ct, BitVec.ofNat 8 (addr / 256),
        BitVec.ofNat 8 (addr % 256), BitVec.ofNat 8 len] ++ payload ∧
      exec .frmEnc s = .next { s with
        rsp := { status := some .ok, out := some (body ++ [BitVec.ofNat 8 (byteTotal body % 256)]) },
        inFlight := false }) ∧
  (∀ s : State,
    (∀ (ct : CommandType) (addr len : Nat) (payload : Bytes),
      s.req.ct = .val ct → s.req.addr = .val addr → s.req.len = .val len → s.req.payload = .val payload →
      ¬ (len = payload.length ∧ payload.length ≤ 255 ∧ addr < 2 ^ 16)) →
    ∃ e, exec .frmEnc s = .refused e)

/-- R74: properties of an encoded frame, and that it is a well-formed frame in the sense of R59. -/
def Obligations.EncodedFrameProperties : Prop :=
  ∀ (s t : State) (len : Nat) (f : Bytes), exec .frmEnc s = .next t → s.req.len = .val len → t.rsp.out = some f →
    f.length = 7 + len ∧ f[0]? = some s.cfg.startByte ∧ f[1]? = some s.cfg.protocolByte ∧
    f[5]? = some (BitVec.ofNat 8 len) ∧ len < 2 ^ 8 ∧ f[6 + len]? = some (csum (f.take (6 + len))) ∧
    (6 ≤ f.length ∧ 7 + (f.getD 5 0).toNat ≤ f.length ∧
      (f.getD (6 + (f.getD 5 0).toNat) 0).toNat = byteTotal (f.take (6 + (f.getD 5 0).toNat)) % 256 ∧
      ∃ ct, f.getD 2 0 = s.cfg.code ct)

/-- R75, R79: FRM.DEC on every input, check by check: the first check that fails decides the status. -/
def Obligations.FrmDecResult : Prop :=
  decodeOpc 0x10 = .ok .frmDec ∧
  ∀ (s : State) (b : Bytes), s.req.input = .val b →
    (b.length < 6 →
      exec .frmDec s = .next { s with rsp := { status := some .truncated }, inFlight := false }) ∧
    (6 ≤ b.length → b.length < 7 + (b.getD 5 0).toNat →
      exec .frmDec s = .next { s with rsp := { status := some .truncated }, inFlight := false }) ∧
    (6 ≤ b.length → 7 + (b.getD 5 0).toNat ≤ b.length →
      b.getD (6 + (b.getD 5 0).toNat) 0 ≠ csum (b.take (6 + (b.getD 5 0).toNat)) →
      exec .frmDec s = .next { s with rsp := { status := some .badChecksum }, inFlight := false }) ∧
    (6 ≤ b.length → 7 + (b.getD 5 0).toNat ≤ b.length →
      b.getD (6 + (b.getD 5 0).toNat) 0 = csum (b.take (6 + (b.getD 5 0).toNat)) →
      (∀ ct, b.getD 2 0 ≠ s.cfg.code ct) →
      exec .frmDec s = .next { s with rsp := { status := some .unknownCommandType }, inFlight := false }) ∧
    (∀ ct, 6 ≤ b.length → 7 + (b.getD 5 0).toNat ≤ b.length →
      b.getD (6 + (b.getD 5 0).toNat) 0 = csum (b.take (6 + (b.getD 5 0).toNat)) →
      b.getD 2 0 = s.cfg.code ct →
      exec .frmDec s = .next { s with
        rsp := {
          status := some .ok
          frame := some {
            startByte := b.getD 0 0
            protocolByte := b.getD 1 0
            commandType := ct
            address := (b.getD 3 0).toNat * 256 + (b.getD 4 0).toNat
            length := (b.getD 5 0).toNat
            payload := (b.drop 6).take (b.getD 5 0).toNat
            checksum := b.getD (6 + (b.getD 5 0).toNat) 0 }
          consumed := some (7 + (b.getD 5 0).toNat) }
        inFlight := false })

/-- R76: the invariants of every Frame that FRM.DEC returns, its checksum taken over the frame bytes 0 to 5+L. -/
def Obligations.DecodedFrameInvariants : Prop :=
  ∀ (s t : State) (b : Bytes), s.req.input = .val b → exec .frmDec s = .next t → t.rsp.status = some .ok →
    ∃ f, t.rsp.frame = some f ∧ f.checksum = csum (b.take (6 + f.length)) ∧ f.length = f.payload.length ∧
      f.checksum = csum ([f.startByte, f.protocolByte, s.cfg.code f.commandType, BitVec.ofNat 8 (f.address / 256),
        BitVec.ofNat 8 (f.address % 256), BitVec.ofNat 8 f.length] ++ f.payload) ∧
      f.address < 2 ^ 16 ∧ f.length < 2 ^ 8

/-- R77: a wrong start or protocol byte is no reason to fail. Whatever the first two bytes are, an input whose checksum is
consistent and whose command type is recognised decodes, and both bytes are copied into the Frame. Changing one of the two
in an input that decodes still gives BadChecksum. -/
def Obligations.StartAndProtocolBytesAreNotChecked : Prop :=
  (∀ (s : State) (x y : Byte) (ct : CommandType) (hi lo len : Byte) (payload : Bytes),
    payload.length = len.toNat →
    s.req.input = .val ([x, y, s.cfg.code ct, hi, lo, len] ++ payload ++
      [csum ([x, y, s.cfg.code ct, hi, lo, len] ++ payload)]) →
    ∃ t f, exec .frmDec s = .next t ∧ t.rsp.status = some .ok ∧ t.rsp.frame = some f ∧
      f.startByte = x ∧ f.protocolByte = y) ∧
  (∀ (s t s' : State) (b : Bytes) (j : Nat) (x : Byte), s.req.input = .val b → exec .frmDec s = .next t →
    t.rsp.status = some .ok → j < 2 → b.getD j 0 ≠ x → s'.req.input = .val (b.set j x) →
    ∃ t', exec .frmDec s' = .next t' ∧ t'.rsp.status = some .badChecksum)

/-- R78: bytes from index 7+L on change nothing, and `consumed` is 7+L. -/
def Obligations.SurplusBytesAreIgnored : Prop :=
  ∀ (s s' : State) (b tail : Bytes), s'.cfg = s.cfg → s.req.input = .val b → s'.req.input = .val (b ++ tail) →
    6 ≤ b.length → b.length = 7 + (b.getD 5 0).toNat →
    ∃ t t', exec .frmDec s = .next t ∧ exec .frmDec s' = .next t' ∧ t'.rsp = t.rsp ∧
      (t.rsp.status = some .ok → t.rsp.consumed = some b.length)

/-- R80, R136: a frame whose command-type byte is `CT_ERROR` is a recognised frame and decodes with status OK. -/
def Obligations.ErrorFrameDecodesOk : Prop :=
  ∀ (s : State) (x y hi lo len : Byte) (payload : Bytes), payload.length = len.toNat →
    s.req.input = .val ([x, y, s.cfg.ctError, hi, lo, len] ++ payload ++
      [csum ([x, y, s.cfg.ctError, hi, lo, len] ++ payload)]) →
    ∃ t f, exec .frmDec s = .next t ∧ t.rsp.status = some .ok ∧ t.rsp.frame = some f ∧ f.commandType = .error ∧
      f.payload = payload

/-- R81: the round trip of every well-formed FRM.ENC request, with any bytes after the frame. -/
def Obligations.FrameRoundTrip : Prop :=
  ∀ (s : State) (ct : CommandType) (addr len : Nat) (payload : Bytes),
    s.req.ct = .val ct → s.req.addr = .val addr → s.req.len = .val len → s.req.payload = .val payload →
    Request.wellFormed s.cfg .frmEnc s.req = true →
    ∃ t f, exec .frmEnc s = .next t ∧ t.rsp.out = some f ∧
      ∀ (u : State) (tail : Bytes), u.cfg = s.cfg → u.req.input = .val (f ++ tail) →
        ∃ v g, exec .frmDec u = .next v ∧ v.rsp.status = some .ok ∧ v.rsp.frame = some g ∧
          g.commandType = ct ∧ g.address = addr ∧ g.length = len ∧ g.payload = payload ∧
          g.startByte = s.cfg.startByte ∧ g.protocolByte = s.cfg.protocolByte ∧ v.rsp.consumed = some f.length

/-- R82: what FRM.DEC answers on a FRM.ENC output with exactly one byte changed, with the rule's example of a changed
length byte that decodes. -/
def Obligations.SingleByteCorruption : Prop :=
  (∀ (e d s : State) (payload f : Bytes) (j : Nat) (x : Byte),
    exec .frmEnc e = .next d → d.rsp.out = some f → e.req.payload = .val payload → s.cfg = e.cfg →
    j < f.length → f.getD j 0 ≠ x → s.req.input = .val (f.set j x) →
    ∃ t, exec .frmDec s = .next t ∧
      (j ≠ 5 → t.rsp.status = some .badChecksum) ∧
      (j = 5 → payload.length < x.toNat → t.rsp.status = some .truncated) ∧
      (j = 5 → x.toNat < payload.length →
        payload.getD x.toNat 0 ≠ csum ((f.set j x).take (6 + x.toNat)) → t.rsp.status = some .badChecksum) ∧
      (j = 5 → x.toNat < payload.length →
        payload.getD x.toNat 0 = csum ((f.set j x).take (6 + x.toNat)) →
        ∃ g, t.rsp.status = some .ok ∧ t.rsp.frame = some g ∧ g.length = x.toNat ∧
          g.payload = payload.take x.toNat)) ∧
  frmDec tc1 [0x41, 0x01, 0x02, 0x63, 0x04, 0x01, 0x00, 0xAC, 0x59] =
    { status := some .ok
      frame := some {
        startByte := 0x41
        protocolByte := 0x01
        commandType := .readResponse
        address := 0x6304
        length := 1
        payload := [0x00]
        checksum := 0xAC }
      consumed := some 8 }

/-- R83: the checksum misses a reordering of the bytes, and two changed bytes whose differences sum to a multiple of
256. -/
def Obligations.WhatTheChecksumMisses : Prop :=
  (∀ a b : Bytes, a.Perm b → csum a = csum b) ∧
  (∀ (b : Bytes) (i j : Nat) (x y : Byte), i < b.length → j < b.length → i ≠ j →
    (256 : Int) ∣ ((x.toNat : Int) - (b.getD i 0).toNat) + ((y.toNat : Int) - (b.getD j 0).toNat) →
    csum ((b.set i x).set j y) = csum b) ∧
  csum [0x41, 0x01, 0x02, 0x63, 0x04, 0x02, 0xD2, 0x00] = 0x7F ∧
  csum [0x41, 0x01, 0x02, 0x63, 0x04, 0x02, 0x00, 0xD2] = 0x7F

/-- R85: FRM.HUNT on every input: the first start byte, at most `SCAN_WINDOW` bytes in, or Truncated. -/
def Obligations.FrmHuntResult : Prop :=
  decodeOpc 0x30 = .ok .frmHunt ∧
  ∀ (s : State) (b : Bytes), s.req.input = .val b →
    (∀ k, k ≤ s.cfg.scanWindow → b[k]? = some s.cfg.startByte → (∀ j < k, b[j]? ≠ some s.cfg.startByte) →
      exec .frmHunt s = .next { s with rsp := { status := some .ok, skip := some k }, inFlight := false }) ∧
    ((∀ k, k ≤ s.cfg.scanWindow → b[k]? ≠ some s.cfg.startByte) →
      exec .frmHunt s = .next { s with rsp := { status := some .truncated }, inFlight := false })

/-! ## The integer operations -/

/-- R91: VAL.DEC.U. -/
def Obligations.ValDecUResult : Prop :=
  (decodeOpc 0x40 = .ok (.valDecU .w1) ∧ decodeOpc 0x41 = .ok (.valDecU .w2) ∧ decodeOpc 0x42 = .ok (.valDecU .w4)) ∧
  ∀ (w : Width) (s : State) (b : Bytes), s.req.input = .val b →
    (b.length ≠ w.bytes →
      exec (.valDecU w) s = .next { s with rsp := { status := some .lengthMismatch }, inFlight := false }) ∧
    (b.length = w.bytes →
      exec (.valDecU w) s = .next { s with
        rsp := { status := some .ok, ival := some (beSum b : Int) }, inFlight := false } ∧
      beSum b < 2 ^ (8 * w.bytes))

/-- R92: VAL.ENC.U. `out` is the `w`-byte sequence whose big-endian reading is `ival`. -/
def Obligations.ValEncUResult : Prop :=
  (decodeOpc 0x50 = .ok (.valEncU .w1) ∧ decodeOpc 0x51 = .ok (.valEncU .w2) ∧ decodeOpc 0x52 = .ok (.valEncU .w4)) ∧
  ∀ (w : Width) (s : State) (v : Int), s.req.ival = .val v →
    (v < 0 ∨ v ≥ 2 ^ (8 * w.bytes) →
      exec (.valEncU w) s = .next { s with rsp := { status := some .unrepresentable }, inFlight := false }) ∧
    (0 ≤ v → v < 2 ^ (8 * w.bytes) →
      ∃ out : Bytes, out.length = w.bytes ∧ (beSum out : Int) = v ∧
        exec (.valEncU w) s = .next { s with rsp := { status := some .ok, out := some out }, inFlight := false })

/-- R93: VAL.DEC.S. -/
def Obligations.ValDecSResult : Prop :=
  (decodeOpc 0x60 = .ok (.valDecS .w1) ∧ decodeOpc 0x61 = .ok (.valDecS .w2) ∧ decodeOpc 0x62 = .ok (.valDecS .w4)) ∧
  ∀ (w : Width) (s : State) (b : Bytes), s.req.input = .val b →
    (b.length ≠ w.bytes →
      exec (.valDecS w) s = .next { s with rsp := { status := some .lengthMismatch }, inFlight := false }) ∧
    (b.length = w.bytes →
      exec (.valDecS w) s = .next { s with
        rsp := { status := some .ok, ival := some (signedReading w.bytes (beSum b)) }, inFlight := false } ∧
      -2 ^ (8 * w.bytes - 1) ≤ signedReading w.bytes (beSum b) ∧
      signedReading w.bytes (beSum b) < 2 ^ (8 * w.bytes - 1))

/-- R94: VAL.ENC.S. `out` is the `w`-byte sequence whose big-endian reading is `ival mod 2^(8w)`. -/
def Obligations.ValEncSResult : Prop :=
  (decodeOpc 0x70 = .ok (.valEncS .w1) ∧ decodeOpc 0x71 = .ok (.valEncS .w2) ∧ decodeOpc 0x72 = .ok (.valEncS .w4)) ∧
  ∀ (w : Width) (s : State) (v : Int), s.req.ival = .val v →
    (v < -2 ^ (8 * w.bytes - 1) ∨ v ≥ 2 ^ (8 * w.bytes - 1) →
      exec (.valEncS w) s = .next { s with rsp := { status := some .unrepresentable }, inFlight := false }) ∧
    (-2 ^ (8 * w.bytes - 1) ≤ v → v < 2 ^ (8 * w.bytes - 1) →
      ∃ out : Bytes, out.length = w.bytes ∧ (beSum out : Int) = v % 2 ^ (8 * w.bytes) ∧
        exec (.valEncS w) s = .next { s with rsp := { status := some .ok, out := some out }, inFlight := false })

/-- R96: the round trips of the integer operations, each through two operations of the block. -/
def Obligations.IntegerRoundTrips : Prop :=
  ∀ (w : Width) (sg : Signedness),
    (∀ (s : State) (v : Int), s.req.ival = .val v → inWidthRange sg w.bytes v →
      ∃ t out, exec (intEncode sg w) s = .next t ∧
        t.rsp.out = some out ∧
        ∀ u : State, u.req.input = .val out →
          ∃ t', exec (intDecode sg w) u = .next t' ∧
            t'.rsp.ival = some v) ∧
    (∀ (s : State) (b : Bytes), s.req.input = .val b → b.length = w.bytes →
      ∃ t v, exec (intDecode sg w) s = .next t ∧
        t.rsp.ival = some v ∧
        ∀ u : State, u.req.ival = .val v →
          ∃ t', exec (intEncode sg w) u = .next t' ∧
            t'.rsp.out = some b)

/-- R95: no integer operation wraps, truncates or saturates; the ranges of the rule's table. -/
def Obligations.NoWrapAround : Prop :=
  (∀ (w : Width) (s t : State) (v : Int), exec (.valDecU w) s = .next t → t.rsp.ival = some v →
    inWidthRange .unsigned w.bytes v) ∧
  (∀ (w : Width) (s t : State) (v : Int), exec (.valDecS w) s = .next t → t.rsp.ival = some v →
    inWidthRange .signed w.bytes v) ∧
  (∀ (w : Width) (s t : State) (v : Int), s.req.ival = .val v → exec (.valEncU w) s = .next t →
    (∃ out, t.rsp.out = some out ∧ out.length = w.bytes ∧ (beSum out : Int) = v) ∨
      t.rsp = { status := some .unrepresentable }) ∧
  (∀ (w : Width) (s t : State) (v : Int), s.req.ival = .val v → exec (.valEncS w) s = .next t →
    (∃ out, t.rsp.out = some out ∧ out.length = w.bytes ∧ signedReading w.bytes (beSum out) = v) ∨
      t.rsp = { status := some .unrepresentable }) ∧
  (∀ v : Int,
    (inWidthRange .unsigned 1 v ↔ 0 ≤ v ∧ v ≤ 255) ∧ (inWidthRange .signed 1 v ↔ -128 ≤ v ∧ v ≤ 127) ∧
    (inWidthRange .unsigned 2 v ↔ 0 ≤ v ∧ v ≤ 65535) ∧ (inWidthRange .signed 2 v ↔ -32768 ≤ v ∧ v ≤ 32767) ∧
    (inWidthRange .unsigned 4 v ↔ 0 ≤ v ∧ v ≤ 4294967295) ∧
    (inWidthRange .signed 4 v ↔ -2147483648 ≤ v ∧ v ≤ 2147483647))

/-- R97: the signed and the unsigned reading of the same bytes. -/
def Obligations.SignedAndUnsignedReadings : Prop :=
  ∀ (w : Width) (s : State) (b : Bytes), s.req.input = .val b → b.length = w.bytes →
    ∃ t t' u v, exec (.valDecU w) s = .next t ∧ t.rsp.ival = some u ∧
      exec (.valDecS w) s = .next t' ∧ t'.rsp.ival = some v ∧
      (u < 2 ^ (8 * w.bytes - 1) → v = u) ∧ (2 ^ (8 * w.bytes - 1) ≤ u → v = u - 2 ^ (8 * w.bytes))

/-! ## The FixedPoint operations -/

/-- R14, R108: rounding is half away from zero, with the rules' examples. -/
def Obligations.RoundingIsHalfAwayFromZero : Prop :=
  (∀ x : ℚ, roundHaz x = roundHalfAway x) ∧
  roundHaz (2155 / 10) = 216 ∧ roundHaz (-2155 / 10) = -216 ∧ roundHaz (4 / 10) = 0 ∧ roundHaz (-1 / 2) = -1 ∧
  roundHaz (1 / 2) = 1 ∧ roundHaz (3 / 2) = 2 ∧ roundHaz (5 / 2) = 3 ∧ roundHaz (-5 / 2) = -3 ∧
  roundHaz (timesScale (2155 / 100) 10) = 216

/-- R106: VAL.DEC.FX. The quotient is exact. -/
def Obligations.ValDecFxResult : Prop :=
  (decodeOpc 0x80 = .ok (.valDecFx .unsigned .w1) ∧ decodeOpc 0x81 = .ok (.valDecFx .unsigned .w2) ∧
    decodeOpc 0x82 = .ok (.valDecFx .unsigned .w4) ∧ decodeOpc 0x84 = .ok (.valDecFx .signed .w1) ∧
    decodeOpc 0x85 = .ok (.valDecFx .signed .w2) ∧ decodeOpc 0x86 = .ok (.valDecFx .signed .w4)) ∧
  ∀ (sg : Signedness) (w : Width) (s : State) (b : Bytes) (scale : Nat),
    s.req.input = .val b → s.req.scale = .val scale → 1 ≤ scale →
    (∀ top, s.cfg.scaleMax = .atMost top → scale ≤ top) →
    (b.length ≠ w.bytes →
      exec (.valDecFx sg w) s = .next { s with rsp := { status := some .lengthMismatch }, inFlight := false }) ∧
    (b.length = w.bytes →
      exec (.valDecFx sg w) s = .next { s with
        rsp := {
          status := some .ok
          ival := some (signedOrUnsigned sg w.bytes (beSum b))
          qval := some ((signedOrUnsigned sg w.bytes (beSum b) : ℚ) / (scale : ℚ)) }
        inFlight := false })

/-- R107: VAL.ENC.FX. The rounded product decides, and `out` is its `w`-byte two's complement or unsigned form. -/
def Obligations.ValEncFxResult : Prop :=
  (decodeOpc 0x90 = .ok (.valEncFx .unsigned .w1) ∧ decodeOpc 0x91 = .ok (.valEncFx .unsigned .w2) ∧
    decodeOpc 0x92 = .ok (.valEncFx .unsigned .w4) ∧ decodeOpc 0x94 = .ok (.valEncFx .signed .w1) ∧
    decodeOpc 0x95 = .ok (.valEncFx .signed .w2) ∧ decodeOpc 0x96 = .ok (.valEncFx .signed .w4)) ∧
  ∀ (sg : Signedness) (w : Width) (s : State) (q : ℚ) (scale : Nat),
    s.req.qval = .val q → s.req.scale = .val scale → 1 ≤ scale →
    (∀ top, s.cfg.scaleMax = .atMost top → scale ≤ top) →
    (¬ inWidthRange sg w.bytes (roundHalfAway (q * scale)) →
      exec (.valEncFx sg w) s = .next { s with rsp := { status := some .unrepresentable }, inFlight := false }) ∧
    (inWidthRange sg w.bytes (roundHalfAway (q * scale)) →
      ∃ out : Bytes, out.length = w.bytes ∧
        (beSum out : Int) = roundHalfAway (q * scale) % 2 ^ (8 * w.bytes) ∧
        exec (.valEncFx sg w) s = .next { s with rsp := { status := some .ok, out := some out }, inFlight := false })

/-- R109: only the rounded product decides whether a value is representable, with the rule's two examples. -/
def Obligations.RangeCheckIsOnTheRoundedValue : Prop :=
  (∀ (sg : Signedness) (w : Width) (s s' t : State) (q q' : ℚ) (scale : Nat),
    s'.cfg = s.cfg → s.req.qval = .val q → s'.req.qval = .val q' → s.req.scale = .val scale →
    s'.req.scale = .val scale → roundHalfAway (q * scale) = roundHalfAway (q' * scale) →
    exec (.valEncFx sg w) s = .next t → ∃ t', exec (.valEncFx sg w) s' = .next t' ∧ t'.rsp = t.rsp) ∧
  encodeFixed .unsigned .w2 (-4 / 100) 10 = { status := some .ok, out := some [0x00, 0x00] } ∧
  encodeFixed .unsigned .w2 (-5 / 100) 10 = { status := some .unrepresentable }

/-- R111: encode then decode gives the rounded product over the scale, which is the value exactly when the product is an
integer. -/
def Obligations.FixedPointEncodeThenDecode : Prop :=
  ∀ (sg : Signedness) (w : Width) (s t u : State) (q : ℚ) (scale : Nat) (out : Bytes),
    s.req.qval = .val q → s.req.scale = .val scale → exec (.valEncFx sg w) s = .next t → t.rsp.out = some out →
    u.cfg = s.cfg → u.req.input = .val out → u.req.scale = .val scale →
    ∃ v, exec (.valDecFx sg w) u = .next v ∧
      v.rsp.qval = some ((roundHalfAway (q * scale) : ℚ) / (scale : ℚ)) ∧
      (v.rsp.qval = some q ↔ ∃ n : ℤ, q * scale = n)

/-- R112: decode then encode gives exactly the same bytes. -/
def Obligations.FixedPointDecodeThenEncode : Prop :=
  ∀ (sg : Signedness) (w : Width) (s : State) (b : Bytes) (scale : Nat),
    s.req.input = .val b → s.req.scale = .val scale → b.length = w.bytes → 1 ≤ scale →
    (∀ top, s.cfg.scaleMax = .atMost top → scale ≤ top) →
    ∃ t q, exec (.valDecFx sg w) s = .next t ∧ t.rsp.qval = some q ∧
      ∀ u : State, u.cfg = s.cfg → u.req.qval = .val q → u.req.scale = .val scale →
        ∃ v, exec (.valEncFx sg w) u = .next v ∧ v.rsp.status = some .ok ∧ v.rsp.out = some b

/-- R113: with scale 1 a FixedPoint operation agrees with the integer operation of its signedness. -/
def Obligations.ScaleOneAgreesWithTheIntegers : Prop :=
  ∀ (sg : Signedness) (w : Width),
    (∀ (s t : State), s.req.scale = .val 1 → exec (.valDecFx sg w) s = .next t →
      ∃ t', exec (intDecode sg w) s = .next t' ∧ t'.rsp.status = t.rsp.status ∧ t'.rsp.ival = t.rsp.ival) ∧
    (∀ (s t : State) (v : Int), s.req.scale = .val 1 → s.req.qval = .val (v : ℚ) → s.req.ival = .val v →
      exec (.valEncFx sg w) s = .next t →
      ∃ t', exec (intEncode sg w) s = .next t' ∧ t'.rsp.status = t.rsp.status ∧ t'.rsp.out = t.rsp.out)

/-! ## The BitField operations -/

/-- R114, R117: VAL.DEC.BF. `names` is the set of names whose bit is set, and `unlabelled` the set bits with no label. -/
def Obligations.ValDecBfResult : Prop :=
  (decodeOpc 0xA0 = .ok (.valDecBf .w1) ∧ decodeOpc 0xA1 = .ok (.valDecBf .w2) ∧
    decodeOpc 0xA2 = .ok (.valDecBf .w4)) ∧
  ∀ (w : Width) (s : State) (b : Bytes) (labels : List Label), s.req.input = .val b → s.req.labels = .val labels →
    (labels.map Label.name).Nodup → (labels.map Label.bit).Nodup → (∀ l ∈ labels, l.bit < 8 * w.bytes) →
    (b.length ≠ w.bytes →
      exec (.valDecBf w) s = .next { s with rsp := { status := some .lengthMismatch }, inFlight := false }) ∧
    (b.length = w.bytes →
      ∃ (ns : List LabelName) (rest : Nat),
        exec (.valDecBf w) s = .next { s with
          rsp := {
            status := some .ok
            ival := some (beSum b : Int)
            names := some ns
            unlabelled := some rest }
          inFlight := false } ∧
        (∀ n, n ∈ ns ↔ ∃ l ∈ labels, l.name = n ∧ (beSum b).testBit l.bit = true) ∧
        (∀ k, rest.testBit k = true ↔ (beSum b).testBit k = true ∧ ∀ l ∈ labels, l.bit ≠ k))

/-- R115: VAL.ENC.BF. -/
def Obligations.ValEncBfResult : Prop :=
  (decodeOpc 0xB0 = .ok (.valEncBf .w1) ∧ decodeOpc 0xB1 = .ok (.valEncBf .w2) ∧
    decodeOpc 0xB2 = .ok (.valEncBf .w4)) ∧
  ∀ (w : Width) (s : State) (names : List LabelName) (labels : List Label),
    s.req.names = .val names → s.req.labels = .val labels →
    (labels.map Label.name).Nodup → (labels.map Label.bit).Nodup → (∀ l ∈ labels, l.bit < 8 * w.bytes) →
    ((∃ n ∈ names, ∀ l ∈ labels, l.name ≠ n) →
      exec (.valEncBf w) s = .next { s with rsp := { status := some .unrepresentable }, inFlight := false }) ∧
    ((∀ n ∈ names, ∃ l ∈ labels, l.name = n) →
      ∃ out : Bytes, out.length = w.bytes ∧
        beSum out = ((labels.filter fun l => decide (l.name ∈ names)).map fun l => 2 ^ l.bit).sum ∧
        (∀ k, (beSum out).testBit k = true ↔ ∃ l ∈ labels, l.bit = k ∧ l.name ∈ names) ∧
        exec (.valEncBf w) s = .next { s with rsp := { status := some .ok, out := some out }, inFlight := false })

/-- R116: label index `k` names bit `k mod 8` of the byte `k / 8` places before the last. -/
def Obligations.BitNumberingOfABitField : Prop :=
  (∀ (w : Width) (s t : State) (b : Bytes) (labels : List Label) (ns : List LabelName),
    s.req.input = .val b → s.req.labels = .val labels → exec (.valDecBf w) s = .next t → t.rsp.names = some ns →
    ∀ l ∈ labels, (l.name ∈ ns ↔ (b.getD (w.bytes - 1 - l.bit / 8) 0).getLsbD (l.bit % 8) = true)) ∧
  (∃ ns, (decodeBits .w2 [0x80, 0x01] [{ name := 1, bit := 15 }, { name := 2, bit := 0 }]).names = some ns ∧
    ∀ n, n ∈ ns ↔ n = 1 ∨ n = 2)

/-- R118: the round trips of the BitField operations. -/
def Obligations.BitFieldRoundTrips : Prop :=
  (∀ (w : Width) (s : State) (names : List LabelName) (labels : List Label),
    s.req.names = .val names → s.req.labels = .val labels → labelsInRange w labels = true →
    (∀ n ∈ names, ∃ l ∈ labels, l.name = n) →
    ∃ t out, exec (.valEncBf w) s = .next t ∧ t.rsp.out = some out ∧
      ∀ u : State, u.req.input = .val out → u.req.labels = .val labels →
        ∃ v ns, exec (.valDecBf w) u = .next v ∧ v.rsp.names = some ns ∧ (∀ n, n ∈ ns ↔ n ∈ names) ∧
          v.rsp.unlabelled = some 0) ∧
  (∀ (w : Width) (s : State) (b : Bytes) (labels : List Label),
    s.req.input = .val b → s.req.labels = .val labels → labelsInRange w labels = true → b.length = w.bytes →
    ∃ t ns, exec (.valDecBf w) s = .next t ∧ t.rsp.names = some ns ∧
      ∀ u : State, u.req.names = .val ns → u.req.labels = .val labels →
        ∃ v, exec (.valEncBf w) u = .next v ∧ (v.rsp.out = some b ↔ t.rsp.unlabelled = some 0))

/-! ## The Raw operations -/

/-- R121: VAL.DEC.RAW. -/
def Obligations.ValDecRawResult : Prop :=
  decodeOpc 0xC0 = .ok .valDecRaw ∧
  ∀ (s : State) (b : Bytes) (n : Nat), s.req.input = .val b → s.req.rwidth = .val n → 1 ≤ n → n ≤ 255 →
    (b.length ≠ n →
      exec .valDecRaw s = .next { s with rsp := { status := some .lengthMismatch }, inFlight := false }) ∧
    (b.length = n →
      exec .valDecRaw s = .next { s with rsp := { status := some .ok, out := some b }, inFlight := false })

/-- R122: VAL.ENC.RAW; a width of 0 is refused. -/
def Obligations.ValEncRawResult : Prop :=
  decodeOpc 0xD0 = .ok .valEncRaw ∧
  (∀ (s : State) (b : Bytes) (n : Nat), s.req.rawval = .val b → s.req.rwidth = .val n → 1 ≤ n → n ≤ 255 →
    (b.length ≠ n →
      exec .valEncRaw s = .next { s with rsp := { status := some .lengthMismatch }, inFlight := false }) ∧
    (b.length = n →
      exec .valEncRaw s = .next { s with rsp := { status := some .ok, out := some b }, inFlight := false })) ∧
  (∀ s : State, s.req.rwidth = .val 0 → ∃ e, exec .valEncRaw s = .refused e)

/-- R123: the Raw round trips, in both orders. -/
def Obligations.RawRoundTrip : Prop :=
  ∀ (s : State) (b : Bytes), s.req.rwidth = .val b.length → 1 ≤ b.length → b.length ≤ 255 →
    (s.req.rawval = .val b →
      ∃ t out, exec .valEncRaw s = .next t ∧ t.rsp.out = some out ∧
        ∀ u : State, u.req.rwidth = .val b.length → u.req.input = .val out →
          ∃ v, exec .valDecRaw u = .next v ∧ v.rsp.out = some b) ∧
    (s.req.input = .val b →
      ∃ t out, exec .valDecRaw s = .next t ∧ t.rsp.out = some out ∧
        ∀ u : State, u.req.rwidth = .val b.length → u.req.rawval = .val out →
          ∃ v, exec .valEncRaw u = .next v ∧ v.rsp.out = some b)

/-! ## All operations -/

/-- R65 items 6 to 10, R135, R137: an operation answers a next state exactly when its request is well-formed, is refused
otherwise, and never faults. -/
def Obligations.AnswersExactlyWellFormedRequests : Prop :=
  ∀ (i : Instr) (s : State),
    (Request.wellFormed s.cfg i s.req = true → ∃ t, exec i s = .next t) ∧
    (Request.wellFormed s.cfg i s.req = false → ∃ e, exec i s = .refused e) ∧
    (∀ f, exec i s ≠ .fault f)

/-- R20: an operation produces its response and nothing else changes. `inFlight` becomes false because the operation is
over. -/
def Obligations.OnlyTheResponseChanges : Prop :=
  ∀ (i : Instr) (s t : State), exec i s = .next t →
    t.cfg = s.cfg ∧ t.req = s.req ∧ t.inFlight = false ∧ t = { s with rsp := t.rsp, inFlight := false }

/-- R23: the response is a function of the request record and the configuration alone; a previous response changes
nothing, the same request again gives the same response, and an operation writes nothing but its response (`inFlight`
becomes false because the operation is over). -/
def Obligations.ResponseDependsOnRequestAndConfigurationOnly : Prop :=
  ∀ (i : Instr) (s s' : State), s'.cfg = s.cfg → s'.req = s.req →
    (∀ t, exec i s = .next t →
      (∃ t', exec i s' = .next t' ∧ t'.rsp = t.rsp) ∧ (∃ t', exec i t = .next t' ∧ t'.rsp = t.rsp) ∧
      t = { s with rsp := t.rsp, inFlight := false }) ∧
    (∀ e, exec i s = .refused e → exec i s' = .refused e)

/-- R21, R64: an operation ignores every request field that R64 does not give it. -/
def Obligations.OtherRequestFieldsAreIgnored : Prop :=
  ∀ (s : State) (r : Request),
    (∀ i : Instr, r.ct = s.req.ct → r.addr = s.req.addr → r.len = s.req.len → r.payload = s.req.payload →
      i = .frmEnc → ∀ t, exec i s = .next t → ∃ t', exec i { s with req := r } = .next t' ∧ t'.rsp = t.rsp) ∧
    (∀ i : Instr, r.input = s.req.input →
      (i = .frmDec ∨ i = .frmCsum ∨ i = .frmHunt ∨ ∃ w, i = .valDecU w ∨ i = .valDecS w) →
      ∀ t, exec i s = .next t → ∃ t', exec i { s with req := r } = .next t' ∧ t'.rsp = t.rsp) ∧
    (∀ i : Instr, r.ival = s.req.ival → (∃ w, i = .valEncU w ∨ i = .valEncS w) →
      ∀ t, exec i s = .next t → ∃ t', exec i { s with req := r } = .next t' ∧ t'.rsp = t.rsp) ∧
    (∀ sg w, r.input = s.req.input → r.scale = s.req.scale →
      ∀ t, exec (.valDecFx sg w) s = .next t →
        ∃ t', exec (.valDecFx sg w) { s with req := r } = .next t' ∧ t'.rsp = t.rsp) ∧
    (∀ sg w, r.qval = s.req.qval → r.scale = s.req.scale →
      ∀ t, exec (.valEncFx sg w) s = .next t →
        ∃ t', exec (.valEncFx sg w) { s with req := r } = .next t' ∧ t'.rsp = t.rsp) ∧
    (∀ w, r.input = s.req.input → r.labels = s.req.labels →
      ∀ t, exec (.valDecBf w) s = .next t →
        ∃ t', exec (.valDecBf w) { s with req := r } = .next t' ∧ t'.rsp = t.rsp) ∧
    (∀ w, r.names = s.req.names → r.labels = s.req.labels →
      ∀ t, exec (.valEncBf w) s = .next t →
        ∃ t', exec (.valEncBf w) { s with req := r } = .next t' ∧ t'.rsp = t.rsp) ∧
    (r.input = s.req.input → r.rwidth = s.req.rwidth →
      ∀ t, exec .valDecRaw s = .next t →
        ∃ t', exec .valDecRaw { s with req := r } = .next t' ∧ t'.rsp = t.rsp) ∧
    (r.rawval = s.req.rawval → r.rwidth = s.req.rwidth →
      ∀ t, exec .valEncRaw s = .next t →
        ∃ t', exec .valEncRaw { s with req := r } = .next t' ∧ t'.rsp = t.rsp)

/-- R22, R32, R157: `status` is always written; each other response field holds a value, which a read gives, exactly on the
operations and outcomes of its row, and holds none, so that a read faults, on all others. -/
def Obligations.WhichFieldsAnOperationWrites : Prop :=
  ∀ (i : Instr) (s t : State), exec i s = .next t →
    writtenExactly .status t.rsp.status t.readStatus True ∧
    writtenExactly .out t.rsp.out t.readOut (t.rsp.status = some .ok ∧
      (i = .frmEnc ∨ i = .valDecRaw ∨ i = .valEncRaw ∨
        ∃ w, i = .valEncU w ∨ i = .valEncS w ∨ i = .valEncBf w ∨ ∃ sg, i = .valEncFx sg w)) ∧
    writtenExactly .frame t.rsp.frame t.readFrame (t.rsp.status = some .ok ∧ i = .frmDec) ∧
    writtenExactly .consumed t.rsp.consumed t.readConsumed (t.rsp.status = some .ok ∧ i = .frmDec) ∧
    writtenExactly .csum t.rsp.csum t.readCsum (i = .frmCsum) ∧
    writtenExactly .skip t.rsp.skip t.readSkip (t.rsp.status = some .ok ∧ i = .frmHunt) ∧
    writtenExactly .ival t.rsp.ival t.readIval (t.rsp.status = some .ok ∧
      ∃ w, i = .valDecU w ∨ i = .valDecS w ∨ i = .valDecBf w ∨ ∃ sg, i = .valDecFx sg w) ∧
    writtenExactly .qval t.rsp.qval t.readQval (t.rsp.status = some .ok ∧ ∃ sg w, i = .valDecFx sg w) ∧
    writtenExactly .names t.rsp.names t.readNames (t.rsp.status = some .ok ∧ ∃ w, i = .valDecBf w) ∧
    writtenExactly .unlabelled t.rsp.unlabelled t.readUnlabelled (t.rsp.status = some .ok ∧ ∃ w, i = .valDecBf w)

/-- R132: an error leaves a response with its status and nothing else, and no other state changes. -/
def Obligations.AnErrorLeavesOnlyItsStatus : Prop :=
  ∀ (i : Instr) (s t : State) (e : Status), exec i s = .next t → t.rsp.status = some e → e ≠ .ok →
    t = { s with rsp := { status := some e }, inFlight := false }

/-- R131: each operation ends OK or with one of the errors of its row, and an error records only its status. -/
def Obligations.WhichErrorsAnOperationRaises : Prop :=
  ∀ (i : Instr) (s t : State), exec i s = .next t → t.rsp.status ≠ some .ok →
    t.rsp = { status := t.rsp.status } ∧
    match i with
    | .frmEnc => False
    | .frmCsum => False
    | .frmDec =>
      t.rsp.status = some .truncated ∨ t.rsp.status = some .badChecksum ∨ t.rsp.status = some .unknownCommandType
    | .frmHunt => t.rsp.status = some .truncated
    | .valDecU _ => t.rsp.status = some .lengthMismatch
    | .valDecS _ => t.rsp.status = some .lengthMismatch
    | .valEncU _ => t.rsp.status = some .unrepresentable
    | .valEncS _ => t.rsp.status = some .unrepresentable
    | .valDecFx _ _ => t.rsp.status = some .lengthMismatch
    | .valEncFx _ _ => t.rsp.status = some .unrepresentable
    | .valDecBf _ => t.rsp.status = some .lengthMismatch
    | .valEncBf _ => t.rsp.status = some .unrepresentable
    | .valDecRaw => t.rsp.status = some .lengthMismatch
    | .valEncRaw => t.rsp.status = some .lengthMismatch

/-- R130: the numeric status codes; every response carries a status with one of them. -/
def Obligations.StatusCodes : Prop :=
  (Status.code .ok = 0x00 ∧ Status.code .truncated = 0x10 ∧ Status.code .badChecksum = 0x11 ∧
    Status.code .unknownCommandType = 0x12 ∧ Status.code .lengthMismatch = 0x20 ∧
    Status.code .unrepresentable = 0x21) ∧
  (∀ (i : Instr) (s t : State), exec i s = .next t →
    ∃ e, t.rsp.status = some e ∧ Status.code e ∈ [0x00, 0x10, 0x11, 0x12, 0x20, 0x21])

/-! ## Reset, the host's side, and the whole block -/

/-- R151, R153: after reset, be it the first or a later one, the request and response records hold no value, nothing is in
flight, and every read of a response field faults, also while the first request is in flight. -/
def Obligations.RecordsHoldNoValueAfterReset : Prop :=
  ∀ s : State, s = State.reset ∨ (∃ u : State, s = u.hostReset) ∨ (∃ p, boot p = .next s) →
    s.req = { opc := .noValue, ct := .noValue, addr := .noValue, len := .noValue, payload := .noValue,
              input := .noValue, scale := .noValue, labels := .noValue, rwidth := .noValue, ival := .noValue,
              qval := .noValue, names := .noValue, rawval := .noValue } ∧
    s.rsp = { status := none, out := none, frame := none, consumed := none, csum := none, skip := none, ival := none,
              qval := none, names := none, unlabelled := none } ∧
    s.inFlight = false ∧ everyReadFaults s ∧ (∀ r t, s.issue r = .next t → everyReadFaults t)

/-- R26, R150: the configuration keeps its values through a reset, an issued request and every step; one with two equal
command-type codes is refused as a whole, and any other is the block's from the start. That a `SCALE_MAX` of 0 is refused
likewise is the model's choice of log 3 (DEDUCED from R8; R26 names the codes' distinctness alone). -/
def Obligations.ConfigurationIsLegalAndNeverChanges : Prop :=
  (∀ s t : State,
    (step s = .next t → t.cfg = s.cfg) ∧ s.hostReset.cfg = s.cfg ∧ (∀ r, s.issue r = .next t → t.cfg = s.cfg)) ∧
  (∀ p : ConfigParams,
    (¬ [p.ctReadRequest, p.ctReadResponse, p.ctWriteRequest, p.ctWriteResponse, p.ctError].Nodup ∨
        p.scaleMax = .atMost 0 →
      boot p = .refused .illegalConfiguration) ∧
    ([p.ctReadRequest, p.ctReadResponse, p.ctWriteRequest, p.ctWriteResponse, p.ctError].Nodup →
      p.scaleMax ≠ .atMost 0 → ∃ t, boot p = .next t ∧ t.cfg.toConfigParams = p))

/-- R32, and the model's choice of log 15: with nothing in flight, reading a response field that holds no value faults and a
field that holds one reads as it; while a request is in flight every read faults, so that no read gives the response to an
earlier request (R45). -/
def Obligations.ReadingAFieldWithNoValueFaults : Prop :=
  ∀ s : State,
    (s.inFlight = true → s.readStatus = .error (.responsePending .status)) ∧
    (s.inFlight = true → s.readOut = .error (.responsePending .out)) ∧
    (s.inFlight = true → s.readFrame = .error (.responsePending .frame)) ∧
    (s.inFlight = true → s.readConsumed = .error (.responsePending .consumed)) ∧
    (s.inFlight = true → s.readCsum = .error (.responsePending .csum)) ∧
    (s.inFlight = true → s.readSkip = .error (.responsePending .skip)) ∧
    (s.inFlight = true → s.readIval = .error (.responsePending .ival)) ∧
    (s.inFlight = true → s.readQval = .error (.responsePending .qval)) ∧
    (s.inFlight = true → s.readNames = .error (.responsePending .names)) ∧
    (s.inFlight = true → s.readUnlabelled = .error (.responsePending .unlabelled)) ∧
    (s.inFlight = false → s.rsp.status = none → s.readStatus = .error (.noValue .status)) ∧
    (s.inFlight = false → s.rsp.out = none → s.readOut = .error (.noValue .out)) ∧
    (s.inFlight = false → s.rsp.frame = none → s.readFrame = .error (.noValue .frame)) ∧
    (s.inFlight = false → s.rsp.consumed = none → s.readConsumed = .error (.noValue .consumed)) ∧
    (s.inFlight = false → s.rsp.csum = none → s.readCsum = .error (.noValue .csum)) ∧
    (s.inFlight = false → s.rsp.skip = none → s.readSkip = .error (.noValue .skip)) ∧
    (s.inFlight = false → s.rsp.ival = none → s.readIval = .error (.noValue .ival)) ∧
    (s.inFlight = false → s.rsp.qval = none → s.readQval = .error (.noValue .qval)) ∧
    (s.inFlight = false → s.rsp.names = none → s.readNames = .error (.noValue .names)) ∧
    (s.inFlight = false → s.rsp.unlabelled = none → s.readUnlabelled = .error (.noValue .unlabelled)) ∧
    (s.inFlight = false → ∀ e, s.rsp.status = some e → s.readStatus = .ok e) ∧
    (s.inFlight = false → ∀ b, s.rsp.out = some b → s.readOut = .ok b) ∧
    (s.inFlight = false → ∀ f, s.rsp.frame = some f → s.readFrame = .ok f) ∧
    (s.inFlight = false → ∀ n, s.rsp.consumed = some n → s.readConsumed = .ok n) ∧
    (s.inFlight = false → ∀ c, s.rsp.csum = some c → s.readCsum = .ok c) ∧
    (s.inFlight = false → ∀ k, s.rsp.skip = some k → s.readSkip = .ok k) ∧
    (s.inFlight = false → ∀ v, s.rsp.ival = some v → s.readIval = .ok v) ∧
    (s.inFlight = false → ∀ q, s.rsp.qval = some q → s.readQval = .ok q) ∧
    (s.inFlight = false → ∀ ns, s.rsp.names = some ns → s.readNames = .ok ns) ∧
    (s.inFlight = false → ∀ u, s.rsp.unlabelled = some u → s.readUnlabelled = .ok u)

/-- R158: a request issued while another is in flight is refused; otherwise it is the request in flight. -/
def Obligations.OverlappingRequestIsRefused : Prop :=
  ∀ (s : State) (r : Request),
    (s.inFlight = true → s.issue r = .refused .overlappingRequest) ∧
    (s.inFlight = false → s.issue r = .next { s with req := r, inFlight := true })

/-- The response record holds, at reset, nothing that breaks the invariant (whose clause on names is about the model's form
of a set, log 5). -/
def Obligations.InvariantAtReset : Prop :=
  State.inv State.reset ∧ ∀ cfg : Config, State.inv (State.resetWith cfg)

/-- R29, R32, R45, R76, R132: every step keeps the invariant: a response that is not OK holds only its status, a Frame is
well-formed and comes with its length, a set of names is in its one form (the model's, log 5), and the response is the one to
the request in the record (R45). -/
def Obligations.StepKeepsTheInvariant : Prop :=
  ∀ s t : State, State.inv s → step s = .next t → State.inv t

/-- R45: the invariant (its clause on names is about the model's form of a set, log 5) holds in every state that a host can
bring the block into; so where any response field can be read,
the response record is the response to the request last issued. -/
def Obligations.InvariantHoldsWheneverReachable : Prop :=
  ∀ s : State, Reachable s → State.inv s ∧ (¬ everyReadFaults s → State.answered s)

/-- R33: a step of one link's block leaves every other block as it was, and does to its own what the block alone does. -/
def Obligations.LinksAreIndependent : Prop :=
  ∀ (k : Nat) (links links' : List State), stepLink k links = .next links' →
    links'.length = links.length ∧ (∀ j, j ≠ k → links'[j]? = links[j]?) ∧
    (∀ s, links[k]? = some s → ∃ t, step s = .next t ∧ links'[k]? = some t)

/-- R69: FRM.RECV on noise, an encoded frame and more bytes returns the frame, when the noise holds no start byte and fits
the scan window. -/
def Obligations.ReceiveFindsTheFrame : Prop :=
  ∀ (e d s : State) (noise tail payload f : Bytes) (ct : CommandType) (addr : Nat),
    exec .frmEnc e = .next d → d.rsp.out = some f → e.req.ct = .val ct → e.req.addr = .val addr →
    e.req.payload = .val payload → s.cfg = e.cfg → s.inFlight = false →
    noise.length ≤ s.cfg.scanWindow → (∀ x ∈ noise, x ≠ s.cfg.startByte) →
    ∃ t g, frmRecv (noise ++ f ++ tail) s = .next t ∧
      t.rsp.status = some .ok ∧ t.rsp.frame = some g ∧ g.commandType = ct ∧ g.address = addr ∧ g.payload = payload ∧
      t.rsp.consumed = some f.length

/-- R69: FRM.PUT fails with the value encoder's status where that is not OK, and then no frame is built; otherwise it gives
the frame that carries the encoded bytes. -/
def Obligations.PutFramesTheEncodedValue : Prop :=
  ∀ (s u : State) (t : ValueType) (sg : Signedness) (v : Value) (ct : CommandType) (addr : Nat),
    s.inFlight = false → addr < 2 ^ 16 → perform (encodeRequest t sg v) s = .next u →
    (u.rsp.status ≠ some .ok → frmPut t sg v ct addr s = .next u ∧ u.rsp.out = none) ∧
    (u.rsp.status = some .ok →
      ∃ w out, u.rsp.out = some out ∧ out.length ≤ 255 ∧ frmPut t sg v ct addr s = .next w ∧
        w.rsp.status = some .ok ∧
        w.rsp.out = some ([s.cfg.startByte, s.cfg.protocolByte, s.cfg.code ct, BitVec.ofNat 8 (addr / 256),
          BitVec.ofNat 8 (addr % 256), BitVec.ofNat 8 out.length] ++ out ++
          [csum ([s.cfg.startByte, s.cfg.protocolByte, s.cfg.code ct, BitVec.ofNat 8 (addr / 256),
            BitVec.ofNat 8 (addr % 256), BitVec.ofNat 8 out.length] ++ out)]))

/-- R160, with the model's choice of log 12 for what counts as value-decoding an Error frame's payload: a host program that
value-decodes the payload of a frame it has decoded, whatever requests stand between, is flagged where that frame is an Error
frame; right after the frame it is flagged exactly there; and the block runs it all the same, with the response that the rules
give for those bytes. -/
def Obligations.DecodingAnErrorPayloadIsFlaggedNotRefused : Prop :=
  ∀ (s : State) (b : Bytes) (g : Frame) (i : Instr) (r : Request), s.inFlight = false →
    (frmDec s.cfg b).frame = some g → fetch r = .ok i → Instr.isValueDecode i = true →
    Request.wellFormed s.cfg i r = true → r.input = .val g.payload →
    breaksErrorFrameDuty (transcript [Asm.frmDec b, r] s) = decide (g.commandType = .error) ∧
    (∀ (between : List Request) (u : State), runRequests (Asm.frmDec b :: between) s = .next u →
      (∃ v w, runRequests (Asm.frmDec b :: between ++ [r]) s = .next v ∧ exec i { s with req := r } = .next w ∧
        v.rsp = w.rsp) ∧
      (g.commandType = .error → breaksErrorFrameDuty (transcript (Asm.frmDec b :: between ++ [r]) s) = true))
end

