-- ==== Sys2Proof/Laws/State.lean ====
section
/-! SUPPORT. What each update of the state does to each field, and what the end of an operation and the host's actions
can answer. -/

namespace Sys2Proof.Machine

/-! One lemma per field per update. -/

@[simp] theorem respond_cfg (s : State) (r : Response) : (s.respond r).cfg = s.cfg := rfl
@[simp] theorem respond_req (s : State) (r : Response) : (s.respond r).req = s.req := rfl
@[simp] theorem respond_rsp (s : State) (r : Response) : (s.respond r).rsp = r := rfl
@[simp] theorem respond_inFlight (s : State) (r : Response) : (s.respond r).inFlight = false := rfl

@[simp] theorem resetWith_cfg (c : Config) : (State.resetWith c).cfg = c := rfl
@[simp] theorem resetWith_req (c : Config) : (State.resetWith c).req = {} := rfl
@[simp] theorem resetWith_rsp (c : Config) : (State.resetWith c).rsp = {} := rfl
@[simp] theorem resetWith_inFlight (c : Config) : (State.resetWith c).inFlight = false := rfl

@[simp] theorem hostReset_eq (s : State) : s.hostReset = State.resetWith s.cfg := rfl

@[simp] theorem withFetchWord_cfg (s : State) (n w : Nat) : (s.withFetchWord n w).cfg = s.cfg := rfl
@[simp] theorem withFetchWord_rsp (s : State) (n w : Nat) : (s.withFetchWord n w).rsp = s.rsp := rfl
@[simp] theorem withFetchWord_inFlight (s : State) (n w : Nat) : (s.withFetchWord n w).inFlight = true := rfl
@[simp] theorem withFetchWord_opc (s : State) (n w : Nat) :
    (s.withFetchWord n w).req.opc = .val (BitVec.ofNat 8 (w % 2 ^ n)) := rfl

@[simp] theorem raiseError_status (e : Status) : (raiseError e).status = some e := rfl

/-! The end of an operation. -/

@[simp] theorem conclude_ok (s : State) (r : Response) : s.conclude (.ok r) = .next (s.respond r) := rfl
@[simp] theorem conclude_error (s : State) (e : Refusal) : s.conclude (.error e) = .refused e := rfl

/-- An operation answers a next state exactly when its operands give a response, and then it is the state with that
response. -/
theorem conclude_next_iff (s t : State) (r : Except Refusal Response) :
    s.conclude r = .next t ↔ ∃ rsp, r = .ok rsp ∧ t = s.respond rsp := by
  cases r with
  | error e => simp
  | ok rsp => simp [eq_comm]

theorem conclude_refused_iff (s : State) (r : Except Refusal Response) (e : Refusal) :
    s.conclude r = .refused e ↔ r = .error e := by
  cases r <;> simp

/-- No operation of the block faults (R132, R139). -/
theorem conclude_ne_fault (s : State) (r : Except Refusal Response) (f : Fault) : s.conclude r ≠ .fault f := by
  cases r <;> simp

/-! The host's actions. -/

theorem issue_idle (s : State) (r : Request) (h : s.inFlight = false) :
    s.issue r = .next { s with req := r, inFlight := true } := by
  simp [State.issue, h]

theorem issue_busy (s : State) (r : Request) (h : s.inFlight = true) :
    s.issue r = .refused .overlappingRequest := by
  simp [State.issue, h]

/-- What issuing a request can answer: the state with that request in flight, and nothing else changed. -/
theorem issue_next_iff (s t : State) (r : Request) :
    s.issue r = .next t ↔ s.inFlight = false ∧ t = { s with req := r, inFlight := true } := by
  cases h : s.inFlight <;> simp [State.issue, h, eq_comm]

theorem boot_next_iff (p : ConfigParams) (t : State) :
    boot p = .next t ↔ ∃ h : p.legal = true, t = State.resetWith { toConfigParams := p, legal := h } := by
  unfold boot
  split
  · next h => simp [h, eq_comm]
  · next h => simp [h]

theorem boot_refused (p : ConfigParams) (h : p.legal = false) : boot p = .refused .illegalConfiguration := by
  simp [boot, h]

/-! What a host's read answers. -/

@[simp] theorem readField_pending {α : Type} (s : State) (f : ResponseField) (v : Response → Option α)
    (h : s.inFlight = true) : s.readField f v = .error (.responsePending f) := by simp [State.readField, h]

theorem readField_idle {α : Type} (s : State) (f : ResponseField) (v : Response → Option α) (h : s.inFlight = false) :
    s.readField f v = match v s.rsp with
      | some a => .ok a
      | none => .error (.noValue f) := by
  cases hv : v s.rsp <;> simp [State.readField, h, hv]

/-- If a read gives a value, then nothing is in flight and the field holds that value; and the other way round. -/
theorem readField_ok_iff {α : Type} (s : State) (f : ResponseField) (v : Response → Option α) (a : α) :
    s.readField f v = .ok a ↔ s.inFlight = false ∧ v s.rsp = some a := by
  cases h : s.inFlight <;> cases hv : v s.rsp <;> simp [State.readField, h, hv]

end Sys2Proof.Machine
end

