-- ==== Sys2Proof/Laws/Bytes.lean ====
section
/-! SUPPORT. The byte conversions of 00_scope.md R13 and the checksum of 40_frame.md R71: each equals the spec's
expression, and the two directions undo each other. -/

namespace Sys2Proof.Machine

@[simp] theorem Width.bytes_pos (w : Width) : 0 < w.bytes := by cases w <;> decide

/-! Sums and checksums. -/

@[simp] theorem sumBytes_nil : sumBytes [] = 0 := rfl
@[simp] theorem sumBytes_cons (x : Byte) (b : Bytes) : sumBytes (x :: b) = x.toNat + sumBytes b := rfl

theorem sumBytes_append (a b : Bytes) : sumBytes (a ++ b) = sumBytes a + sumBytes b := by
  induction a with
  | nil => simp
  | cons x a ih => simp [ih, Nat.add_assoc]

theorem sumBytes_eq_sum (b : Bytes) : sumBytes b = (b.map BitVec.toNat).sum := by
  induction b with
  | nil => rfl
  | cons x b ih => simp [ih]

theorem csum_toNat (b : Bytes) : (csum b).toNat = sumBytes b % 256 := by simp [csum]

theorem csum_eq_iff (a b : Bytes) : csum a = csum b ↔ sumBytes a % 256 = sumBytes b % 256 := by
  rw [← BitVec.toNat_inj, csum_toNat, csum_toNat]

/-- The order of the bytes does not matter to the sum (R83). -/
theorem sumBytes_perm {a b : Bytes} (h : a.Perm b) : sumBytes a = sumBytes b := by
  rw [sumBytes_eq_sum, sumBytes_eq_sum]
  exact (h.map _).sum_eq

/-- Replacing one byte changes the sum by the difference of the two bytes. -/
theorem sumBytes_set (b : Bytes) (j : Nat) (x : Byte) (h : j < b.length) :
    sumBytes (b.set j x) + b[j].toNat = sumBytes b + x.toNat := by
  induction b generalizing j with
  | nil => simp at h
  | cons y b ih =>
    cases j with
    | zero => simp; omega
    | succ j =>
      have := ih j (by simpa using h)
      simp; omega

/-- One changed byte always changes the checksum (R82). -/
theorem csum_set_ne (b : Bytes) (j : Nat) (x : Byte) (h : j < b.length) (hx : x ≠ b[j]) :
    csum (b.set j x) ≠ csum b := by
  rw [Ne, csum_eq_iff]
  have hs := sumBytes_set b j x h
  have hne : x.toNat ≠ b[j].toNat := fun e => hx (BitVec.eq_of_toNat_eq e)
  have h1 := x.isLt
  have h2 := b[j].isLt
  omega

/-! Indexing. -/

theorem byteAt_eq_getElem (b : Bytes) (i : Nat) (h : i < b.length) : byteAt b i = b[i] := by
  simp [byteAt, h]

theorem byteAt_append_left (a b : Bytes) (i : Nat) (h : i < a.length) : byteAt (a ++ b) i = byteAt a i := by
  simp [byteAt, List.getElem?_append_left h]

theorem byteAt_append_right (a b : Bytes) (i : Nat) : byteAt (a ++ b) (a.length + i) = byteAt b i := by
  simp [byteAt, List.getElem?_append_right]

/-! Big-endian numbers. -/

@[simp] theorem beNat_nil : beNat [] = 0 := rfl
@[simp] theorem beNat_cons (x : Byte) (b : Bytes) : beNat (x :: b) = x.toNat * 256 ^ b.length + beNat b := rfl

theorem beNat_lt (b : Bytes) : beNat b < 256 ^ b.length := by
  induction b with
  | nil => simp
  | cons x b ih =>
    have hx : x.toNat ≤ 255 := by have := x.isLt; omega
    have : x.toNat * 256 ^ b.length ≤ 255 * 256 ^ b.length := Nat.mul_le_mul_right _ hx
    simp only [beNat_cons, List.length_cons, Nat.pow_succ]
    omega

/-- R13: `be_N(b)` is the sum over the bytes, the first the most significant. -/
theorem beNat_eq_sum (b : Bytes) :
    beNat b = ∑ i ∈ Finset.range b.length, (b.getD i 0).toNat * 256 ^ (b.length - 1 - i) := by
  induction b with
  | nil => simp
  | cons x b ih =>
    rw [beNat_cons, ih, List.length_cons, Finset.sum_range_succ', Nat.add_comm]
    congr 1
    apply Finset.sum_congr rfl
    intro i _
    have : b.length + 1 - 1 - (i + 1) = b.length - 1 - i := by omega
    rw [this]
    simp

@[simp] theorem toBe_length (n u : Nat) : (toBe n u).length = n := by
  induction n with
  | zero => rfl
  | succ n ih => simp [toBe, ih]

theorem beNat_toBe_mod (n u : Nat) : beNat (toBe n u) = u % 256 ^ n := by
  induction n with
  | zero => simp [toBe, Nat.mod_one]
  | succ n ih =>
    have hm : u % 256 ^ (n + 1) = 256 ^ n * (u / 256 ^ n % 256) + u % 256 ^ n := by
      rw [Nat.pow_succ, Nat.mod_mul, Nat.add_comm]
    simp [toBe, ih, hm, Nat.mul_comm]

/-- Writing a number in `n` bytes and reading it back gives the number (R13). -/
theorem beNat_toBe (n u : Nat) (h : u < 256 ^ n) : beNat (toBe n u) = u := by
  rw [beNat_toBe_mod, Nat.mod_eq_of_lt h]

theorem toBe_add_mul (n u k : Nat) : toBe n (u + 256 ^ n * k) = toBe n u := by
  induction n generalizing k with
  | zero => rfl
  | succ n ih =>
    have h2 : 256 ^ (n + 1) * k = 256 ^ n * (256 * k) := by ring
    have h1 : (u + 256 ^ (n + 1) * k) / 256 ^ n = u / 256 ^ n + 256 * k := by
      rw [h2, Nat.add_mul_div_left _ _ (by positivity)]
    have h3 : BitVec.ofNat 8 ((u + 256 ^ (n + 1) * k) / 256 ^ n) = BitVec.ofNat 8 (u / 256 ^ n) := by
      rw [h1]; apply BitVec.eq_of_toNat_eq; simp
    simp only [toBe, h3]
    rw [h2, ih]

/-- Reading bytes as a number and writing it back gives the bytes. -/
theorem toBe_beNat (b : Bytes) : toBe b.length (beNat b) = b := by
  induction b with
  | nil => rfl
  | cons x b ih =>
    have hq : (x.toNat * 256 ^ b.length + beNat b) / 256 ^ b.length = x.toNat := by
      rw [Nat.mul_comm, Nat.mul_add_div (by positivity), Nat.div_eq_of_lt (beNat_lt b), Nat.add_zero]
    have ht : toBe b.length (x.toNat * 256 ^ b.length + beNat b) = b := by
      rw [Nat.add_comm, Nat.mul_comm, toBe_add_mul, ih]
    simp [toBe, hq, ht]

theorem pow256 (n : Nat) : 256 ^ n = 2 ^ (8 * n) := by rw [pow_mul]; norm_num

/-! Two's complement (R13). -/

theorem sext_of_lt (n u : Nat) (h : u < 2 ^ (8 * n - 1)) : sext n u = u := by simp [sext, h]

theorem sext_of_ge (n u : Nat) (h : 2 ^ (8 * n - 1) ≤ u) : sext n u = (u : Int) - 2 ^ (8 * n) := by
  simp [sext, Nat.not_lt.mpr h]

theorem two_pow_half (n : Nat) (h : 0 < n) : 2 ^ (8 * n) = 2 * 2 ^ (8 * n - 1) := by
  rw [← Nat.pow_succ']; congr 1; omega

theorem two_pow_half_int (n : Nat) (h : 0 < n) : (2 : Int) ^ (8 * n) = 2 * 2 ^ (8 * n - 1) := by
  exact_mod_cast two_pow_half n h

/-- A signed reading lies in the signed range (R93). -/
theorem sext_range (n u : Nat) (hn : 0 < n) (hu : u < 2 ^ (8 * n)) :
    -2 ^ (8 * n - 1) ≤ sext n u ∧ sext n u < 2 ^ (8 * n - 1) := by
  have h2 := two_pow_half n hn
  have h2i := two_pow_half_int n hn
  unfold sext
  split
  · next h => exact ⟨le_trans (neg_nonpos.mpr (by positivity)) (by positivity), by exact_mod_cast h⟩
  · next h =>
    have h' : (2 : Int) ^ (8 * n - 1) ≤ u := by exact_mod_cast Nat.not_lt.mp h
    have hu' : (u : Int) < 2 ^ (8 * n) := by exact_mod_cast hu
    constructor <;> linarith

theorem twos_lt (n : Nat) (v : Int) : twos n v < 2 ^ (8 * n) := by
  have hp : (0 : Int) < 2 ^ (8 * n) := by positivity
  have h := Int.emod_lt_of_pos v hp
  have h0 := Int.emod_nonneg v hp.ne'
  unfold twos
  zify
  rwa [Int.toNat_of_nonneg h0]

theorem twos_sext (n u : Nat) (hu : u < 2 ^ (8 * n)) : twos n (sext n u) = u := by
  have hu' : (u : Int) < 2 ^ (8 * n) := by exact_mod_cast hu
  have hmod : sext n u % 2 ^ (8 * n) = u := by
    unfold sext
    split
    · exact Int.emod_eq_of_lt (by positivity) hu'
    · rw [Int.sub_emod_right]; exact Int.emod_eq_of_lt (by positivity) hu'
  simp [twos, hmod]

theorem sext_twos (n : Nat) (v : Int) (hn : 0 < n) (hlo : -2 ^ (8 * n - 1) ≤ v) (hhi : v < 2 ^ (8 * n - 1)) :
    sext n (twos n v) = v := by
  have h2i := two_pow_half_int n hn
  have hp : (0 : Int) < 2 ^ (8 * n - 1) := by positivity
  have h0 : 0 ≤ v % 2 ^ (8 * n) := Int.emod_nonneg v (by positivity)
  have ht : ((twos n v : Nat) : Int) = v % 2 ^ (8 * n) := by simp [twos, Int.toNat_of_nonneg h0]
  rcases lt_or_ge v 0 with hv | hv
  · have hm : v % 2 ^ (8 * n) = v + 2 ^ (8 * n) := by
      rw [← Int.add_emod_right]; exact Int.emod_eq_of_lt (by linarith) (by linarith)
    have hge : 2 ^ (8 * n - 1) ≤ twos n v := by
      zify; rw [ht, hm]; linarith
    rw [sext_of_ge _ _ hge, ht, hm]; ring
  · have hm : v % 2 ^ (8 * n) = v := Int.emod_eq_of_lt hv (by linarith)
    have hlt : twos n v < 2 ^ (8 * n - 1) := by
      zify; rw [ht, hm]; exact hhi
    rw [sext_of_lt _ _ hlt, ht, hm]

end Sys2Proof.Machine
end

