-- ==== Sys2Proof/Laws/Names.lean ====
section
/-! SUPPORT. Sets of names and masks of bits (42_value_fixed_bitfield_raw.md R114 to R118). -/

namespace Sys2Proof.Machine

/-! A set of names is its strictly rising list. -/

theorem mem_insertName (n m : LabelName) (ns : List LabelName) : m ∈ insertName n ns ↔ m = n ∨ m ∈ ns := by
  induction ns with
  | nil => simp [insertName]
  | cons k ks ih =>
    unfold insertName
    split
    · simp
    · split
      · next h => subst h; simp
      · simp only [List.mem_cons, ih]; tauto

@[simp] theorem mem_nameSet (m : LabelName) (ns : List LabelName) : m ∈ nameSet ns ↔ m ∈ ns := by
  induction ns with
  | nil => simp [nameSet]
  | cons k ks ih => simp [nameSet, mem_insertName, ih]

theorem insertName_sorted (n : LabelName) (ns : List LabelName) (h : ns.Pairwise (· < ·)) :
    (insertName n ns).Pairwise (· < ·) := by
  induction ns with
  | nil => simp [insertName]
  | cons k ks ih =>
    obtain ⟨hk, hks⟩ := List.pairwise_cons.mp h
    unfold insertName
    split
    · next hlt =>
      refine List.pairwise_cons.mpr ⟨?_, h⟩
      intro a ha
      rcases List.mem_cons.mp ha with rfl | ha
      · exact hlt
      · exact lt_trans hlt (hk a ha)
    · split
      · exact h
      · next hlt hne =>
        refine List.pairwise_cons.mpr ⟨?_, ih hks⟩
        intro a ha
        rcases (mem_insertName n a ks).mp ha with rfl | ha
        · exact lt_of_le_of_ne (Nat.not_lt.mp hlt) (Ne.symm hne)
        · exact hk a ha

theorem nameSet_sorted (ns : List LabelName) : (nameSet ns).Pairwise (· < ·) := by
  induction ns with
  | nil => simp [nameSet]
  | cons k ks ih => exact insertName_sorted k _ ih

/-- Two strictly rising lists with the same members are the same list. -/
theorem sorted_ext {a b : List LabelName} (ha : a.Pairwise (· < ·)) (hb : b.Pairwise (· < ·))
    (h : ∀ n, n ∈ a ↔ n ∈ b) : a = b := by
  have hp : a.Perm b := by
    refine (List.perm_ext_iff_of_nodup ?_ ?_).mpr h
    · exact ha.imp (fun h => Nat.ne_of_lt h)
    · exact hb.imp (fun h => Nat.ne_of_lt h)
  exact hp.eq_of_pairwise (fun _ _ _ _ h1 h2 => absurd h1 (Nat.lt_asymm h2)) ha hb

/-- Lists with the same members are the same set. -/
theorem nameSet_ext {a b : List LabelName} (h : ∀ n, n ∈ a ↔ n ∈ b) : nameSet a = nameSet b :=
  sorted_ext (nameSet_sorted a) (nameSet_sorted b) (by simpa using h)

theorem mem_activeNames (labels : List Label) (u : Nat) (n : LabelName) :
    n ∈ activeNames labels u ↔ ∃ l ∈ labels, l.name = n ∧ u.testBit l.bit = true := by
  simp only [activeNames, mem_nameSet, List.mem_map, List.mem_filter]
  constructor
  · rintro ⟨l, ⟨h1, h2⟩, h3⟩; exact ⟨l, h1, h3, h2⟩
  · rintro ⟨l, h1, h2, h3⟩; exact ⟨l, ⟨h1, h3⟩, h2⟩

/-! Masks. -/

@[simp] theorem andNot_testBit (u m k : Nat) : (andNot u m).testBit k = (u.testBit k && !m.testBit k) := by
  simp only [andNot, Nat.testBit_xor, Nat.testBit_and]
  cases u.testBit k <;> cases m.testBit k <;> rfl

@[simp] theorem labelMask_nil : labelMask [] = 0 := rfl
@[simp] theorem labelMask_cons (l : Label) (ls : List Label) : labelMask (l :: ls) = 2 ^ l.bit + labelMask ls := rfl

/-- Adding a power of two whose bit is clear sets that bit and no other. -/
theorem testBit_two_pow_add_of_clear (b m : Nat) (h : m.testBit b = false) (k : Nat) :
    (2 ^ b + m).testBit k = (decide (b = k) || m.testBit k) := by
  rcases Nat.lt_trichotomy k b with hk | hk | hk
  · rw [Nat.testBit_two_pow_add_gt hk]; simp [Nat.ne_of_gt hk]
  · subst hk; rw [Nat.testBit_two_pow_add_eq, h]; simp
  · have hlow : m % 2 ^ (b + 1) < 2 ^ b := by
      have hb : m / 2 ^ b % 2 = 0 := by
        have := Nat.testBit_eq_decide_div_mod_eq (x := m) (i := b)
        rw [h] at this
        have := decide_eq_false_iff_not.mp this.symm
        omega
      rw [Nat.pow_succ, Nat.mod_mul, hb, Nat.mul_zero, Nat.add_zero]
      exact Nat.mod_lt _ (by positivity)
    have hdiv : (2 ^ b + m) / 2 ^ (b + 1) = m / 2 ^ (b + 1) := by
      have hm := Nat.div_add_mod m (2 ^ (b + 1))
      have hp : 2 ^ (b + 1) = 2 * 2 ^ b := by rw [Nat.pow_succ, Nat.mul_comm]
      have hs : 2 ^ b + m = 2 ^ (b + 1) * (m / 2 ^ (b + 1)) + (2 ^ b + m % 2 ^ (b + 1)) := by omega
      have hlt : 2 ^ b + m % 2 ^ (b + 1) < 2 ^ (b + 1) := by omega
      rw [hs, Nat.mul_add_div (by positivity), Nat.div_eq_of_lt hlt, Nat.add_zero]
    obtain ⟨j, rfl⟩ : ∃ j, k = j + (b + 1) := ⟨k - (b + 1), by omega⟩
    have hne : ¬ b = j + (b + 1) := by omega
    rw [← Nat.testBit_div_two_pow, hdiv, Nat.testBit_div_two_pow]
    simp [hne]

/-- With distinct bit indices the sum of the powers has exactly the labelled bits set (R114). -/
theorem labelMask_testBit (labels : List Label) (h : (labels.map Label.bit).Nodup) (k : Nat) :
    (labelMask labels).testBit k = labels.any fun l => decide (l.bit = k) := by
  induction labels generalizing k with
  | nil => simp
  | cons l ls ih =>
    obtain ⟨hl, hls⟩ := List.nodup_cons.mp h
    have hclear : (labelMask ls).testBit l.bit = false := by
      rw [ih hls]
      simp only [List.any_eq_false, decide_eq_true_eq]
      intro m hm he
      exact hl (List.mem_map.mpr ⟨m, hm, he⟩)
    rw [labelMask_cons, testBit_two_pow_add_of_clear _ _ hclear, ih hls]
    simp

/-- The bit of a big-endian number, found in its bytes: bit 0 is the last byte's least significant bit (R116). -/
theorem beNat_testBit (b : Bytes) (k : Nat) (hk : k < 8 * b.length) :
    (beNat b).testBit k = (b.getD (b.length - 1 - k / 8) 0).getLsbD (k % 8) := by
  induction b with
  | nil => simp at hk
  | cons x b ih =>
    rw [beNat_cons, pow256, Nat.mul_comm, Nat.testBit_two_pow_mul_add _ (pow256 b.length ▸ beNat_lt b)]
    split
    · next h =>
      have hi : (x :: b).length - 1 - k / 8 = (b.length - 1 - k / 8) + 1 := by simp; omega
      rw [ih h, hi]; simp
    · next h =>
      have hi : (x :: b).length - 1 - k / 8 = 0 := by simp at hk ⊢; omega
      have hj : k - 8 * b.length = k % 8 := by simp at hk; omega
      rw [hi, hj]; rfl

theorem nodup_bits_filter (labels : List Label) (p : Label → Bool) (h : (labels.map Label.bit).Nodup) :
    ((labels.filter p).map Label.bit).Nodup :=
  h.sublist (List.Sublist.map _ List.filter_sublist)

/-- The bits that VAL.ENC.BF sets (R115). -/
theorem labelMask_filter_testBit (labels : List Label) (names : List LabelName) (h : (labels.map Label.bit).Nodup)
    (k : Nat) :
    (labelMask (labels.filter fun l => decide (l.name ∈ names))).testBit k = true ↔
      ∃ l ∈ labels, l.bit = k ∧ l.name ∈ names := by
  rw [labelMask_testBit _ (nodup_bits_filter _ _ h)]
  simp [and_assoc, and_comm]

/-- No labelled bit overflows the width (R115). -/
theorem labelMask_filter_lt (n : Nat) (labels : List Label) (names : List LabelName)
    (h : (labels.map Label.bit).Nodup) (hn : ∀ l ∈ labels, l.bit < n) :
    labelMask (labels.filter fun l => decide (l.name ∈ names)) < 2 ^ n := by
  apply Nat.lt_pow_two_of_testBit
  intro i hi
  by_contra hc
  obtain ⟨l, hl, rfl, -⟩ := (labelMask_filter_testBit labels names h i).mp (by simpa using hc)
  exact absurd (hn l hl) (by omega)

/-- The bits that VAL.DEC.BF reports as unlabelled (R114, R117). -/
theorem andNot_labelMask_testBit (labels : List Label) (h : (labels.map Label.bit).Nodup) (u k : Nat) :
    (andNot u (labelMask labels)).testBit k = true ↔ u.testBit k = true ∧ ∀ l ∈ labels, l.bit ≠ k := by
  simp [labelMask_testBit _ h]

end Sys2Proof.Machine
end

