-- ==== Sys2Proof/Laws/Rational.lean ====
section
/-! SUPPORT. The exact rational arithmetic of the FixedPoint rules equals the spec's expressions (00_scope.md R14,
42_value_fixed_bitfield_raw.md R106, R107). -/

namespace Sys2Proof.Machine

/-- R106: the exact quotient. -/
theorem overScale_eq (raw : Int) (scale : Nat) : overScale raw scale = (raw : ℚ) / (scale : ℚ) := by
  rw [overScale, Rat.mkRat_eq_div]

/-- R107: the exact product. -/
theorem timesScale_eq (q : ℚ) (scale : Nat) : timesScale q scale = q * (scale : ℚ) := by
  rw [timesScale, Rat.mkRat_eq_div]
  push_cast
  rw [mul_div_right_comm, Rat.num_div_den]

/-- An integer rounds to itself. -/
@[simp] theorem roundHaz_intCast (n : Int) : roundHaz (n : ℚ) = n := by
  have h : (2 * n.natAbs + 1) / 2 = n.natAbs := by omega
  simp [roundHaz, h, Int.sign_mul_abs]

/-- The floor of a fraction of naturals plus a half. -/
theorem floor_half (m d : Nat) (hd : 0 < d) : ⌊(m : ℚ) / d + 1 / 2⌋ = ((2 * m + d) / (2 * d) : Nat) := by
  have hd' : (d : ℚ) ≠ 0 := by positivity
  have h : (m : ℚ) / d + 1 / 2 = ((2 * m + d : Nat) : ℚ) / ((2 * d : Nat) : ℚ) := by
    push_cast; field_simp
  rw [h]
  exact Rat.floor_natCast_div_natCast _ _

/-- R14: `round_haz(x) = sign(x) · floor(|x| + 1/2)`, with `sign(x)` −1 below zero and +1 otherwise. -/
theorem roundHaz_eq (x : ℚ) : roundHaz x = (if x < 0 then -1 else 1) * ⌊|x| + 1 / 2⌋ := by
  have habs : |x| = (x.num.natAbs : ℚ) / x.den := by
    conv_lhs => rw [← Rat.num_div_den x]
    rw [abs_div, Nat.abs_cast]
    congr 1
    rw [← Int.cast_abs, Int.abs_eq_natAbs]
    simp
  rw [habs, floor_half _ _ x.den_pos, roundHaz]
  rcases lt_trichotomy x 0 with h | h | h
  · have : x.num < 0 := Rat.num_neg.mpr h
    simp [h, Int.sign_eq_neg_one_of_neg this]
  · subst h; simp
  · have : 0 < x.num := Rat.num_pos.mpr h
    simp [not_lt.mpr h.le, Int.sign_eq_one_of_pos this]

/-- Dividing by the scale and multiplying by it gives the integer back (R112). -/
theorem roundHaz_timesScale_overScale (raw : Int) (scale : Nat) (h : 1 ≤ scale) :
    roundHaz (timesScale (overScale raw scale) scale) = raw := by
  have hs : (scale : ℚ) ≠ 0 := by positivity
  rw [timesScale_eq, overScale_eq, div_mul_cancel₀ _ hs, roundHaz_intCast]

end Sys2Proof.Machine
end

