-- ==== Sys2Proof/Laws/Operands.lean ====
section
/-! SUPPORT. The command-type codes, and the operand readers: each reads a request exactly when 30_encoding.md R65 calls
it well-formed, and then gives its fields as they are (R64). -/

namespace Sys2Proof

/-- The five codes are pairwise distinct in every configuration (R26). -/
theorem Config.codes_nodup (cfg : Config) : cfg.codes.Nodup := by
  have h := cfg.legal
  simp only [ConfigParams.legal, ConfigParams.codesDistinct, Bool.and_eq_true, decide_eq_true_eq] at h
  exact h.1

/-- A bounded `SCALE_MAX` is at least 1 in every configuration (R8). -/
theorem Config.scaleMax_pos (cfg : Config) (n : Nat) (h : cfg.scaleMax = .atMost n) : 1 ≤ n := by
  have hl := cfg.legal
  simp only [ConfigParams.legal, ConfigParams.scaleMaxPositive, Bool.and_eq_true] at hl
  simpa [h] using hl.2

/-- `ct_of` undoes `code` (R16). -/
theorem Config.ctOf_code (cfg : Config) (ct : CommandType) : cfg.ctOf (cfg.code ct) = some ct := by
  have h := cfg.codes_nodup
  simp only [ConfigParams.codes, List.nodup_cons, List.mem_cons, List.not_mem_nil, not_or, or_false] at h
  obtain ⟨⟨h12, h13, h14, h15⟩, ⟨h23, h24, h25⟩, ⟨h34, h35⟩, h45, -⟩ := h
  cases ct <;>
    simp [Config.code, Config.ctOf, Ne.symm h12, Ne.symm h13, Ne.symm h14, Ne.symm h15, Ne.symm h23, Ne.symm h24,
      Ne.symm h25, Ne.symm h34, Ne.symm h35, Ne.symm h45]

/-- `ct_of(x)` is a command type only where its code is `x` (R16). -/
theorem Config.code_of_ctOf (cfg : Config) (x : Byte) (ct : CommandType) (h : cfg.ctOf x = some ct) :
    cfg.code ct = x := by
  unfold Config.ctOf at h
  split_ifs at h <;> simp_all <;> subst_vars <;> simp_all [Config.code]

theorem Config.ctOf_eq_some_iff (cfg : Config) (x : Byte) (ct : CommandType) :
    cfg.ctOf x = some ct ↔ cfg.code ct = x :=
  ⟨cfg.code_of_ctOf x ct, fun h => h ▸ cfg.ctOf_code ct⟩

theorem Config.ctOf_eq_none_iff (cfg : Config) (x : Byte) : cfg.ctOf x = none ↔ ∀ ct, cfg.code ct ≠ x := by
  rw [Option.eq_none_iff_forall_ne_some]
  exact forall_congr' fun ct => not_congr (cfg.ctOf_eq_some_iff x ct)

end Sys2Proof

namespace Sys2Proof.Machine

/-! Checks: each passes exactly when its items of R65 do not hold. -/

theorem readSlot_ok_iff {α : Type} (n : OperandName) (f : Slot α) (a : α) : readSlot n f = .ok a ↔ f = .val a := by
  cases f <;> simp [readSlot]

@[simp] theorem readSlot_val {α : Type} (n : OperandName) (a : α) : readSlot n (.val a) = .ok a := rfl

theorem checkFrame_ok_iff (addr len : Nat) (payload : Bytes) :
    checkFrame addr len payload = .ok () ↔ len = payload.length ∧ payload.length ≤ 255 ∧ addr < 2 ^ 16 := by
  unfold checkFrame
  split_ifs with h1 h2 h3 <;> simp <;> omega

theorem checkScale_ok_iff (m : ScaleMax) (hm : ∀ n, m = .atMost n → 1 ≤ n) (scale : Nat) :
    checkScale m scale = .ok () ↔ scaleInRange m scale = true := by
  match scale with
  | 0 => simp [checkScale, scaleInRange]
  | 1 => cases m <;> simp [checkScale, scaleInRange]; exact hm _ rfl
  | n + 2 =>
    cases m with
    | unbounded => simp [checkScale, scaleInRange]
    | atMost top =>
      simp only [checkScale, scaleInRange]
      split_ifs with h <;> simp [h]

theorem checkLabels_ok_iff (w : Width) (labels : List Label) :
    checkLabels w labels = .ok () ↔ labelsInRange w labels = true := by
  unfold checkLabels labelsInRange
  split_ifs with h1 h2 h3 <;> simp_all

theorem checkRawWidth_ok_iff (n : Nat) : checkRawWidth n = .ok () ↔ 1 ≤ n ∧ n ≤ 255 := by
  unfold checkRawWidth
  split_ifs with h <;> simp [h]

/-! Reading: what each reader gives, where it gives something. -/

/-- A first read that succeeds and what the rest of the reader then does. -/
theorem bind_ok_iff {α β : Type} (x : Except Refusal α) (f : α → Except Refusal β) (b : β) :
    (x >>= f) = .ok b ↔ ∃ a, x = .ok a ∧ f a = .ok b := by
  cases x <;> simp [bind, Except.bind]

theorem readFrmEnc_ok_iff (req : Request) (ct : CommandType) (addr len : Nat) (payload : Bytes) :
    readFrmEnc req = .ok (ct, addr, len, payload) ↔
      req.ct = .val ct ∧ req.addr = .val addr ∧ req.len = .val len ∧ req.payload = .val payload ∧
      len = payload.length ∧ payload.length ≤ 255 ∧ addr < 2 ^ 16 := by
  simp only [readFrmEnc, bind_ok_iff, readSlot_ok_iff]
  constructor
  · rintro ⟨_, h1, _, h2, _, h3, _, h4, u, h5, h6⟩
    cases u; cases h6
    exact ⟨h1, h2, h3, h4, (checkFrame_ok_iff _ _ _).mp h5⟩
  · rintro ⟨h1, h2, h3, h4, h5⟩
    exact ⟨_, h1, _, h2, _, h3, _, h4, (), (checkFrame_ok_iff _ _ _).mpr h5, rfl⟩

theorem readInput_ok_iff (req : Request) (b : Bytes) : readInput req = .ok b ↔ req.input = .val b :=
  readSlot_ok_iff _ _ _

theorem readIval_ok_iff (req : Request) (v : Int) : readIval req = .ok v ↔ req.ival = .val v :=
  readSlot_ok_iff _ _ _

theorem readScale_ok_iff (cfg : Config) (req : Request) (scale : Nat) :
    readScale cfg req = .ok scale ↔ req.scale = .val scale ∧ scaleInRange cfg.scaleMax scale = true := by
  simp only [readScale, bind_ok_iff, readSlot_ok_iff]
  constructor
  · rintro ⟨_, h1, u, h2, h3⟩
    cases u; cases h3
    exact ⟨h1, (checkScale_ok_iff _ cfg.scaleMax_pos _).mp h2⟩
  · rintro ⟨h1, h2⟩
    exact ⟨_, h1, (), (checkScale_ok_iff _ cfg.scaleMax_pos _).mpr h2, rfl⟩

theorem readDecFx_ok_iff (cfg : Config) (req : Request) (b : Bytes) (scale : Nat) :
    readDecFx cfg req = .ok (b, scale) ↔
      req.input = .val b ∧ req.scale = .val scale ∧ scaleInRange cfg.scaleMax scale = true := by
  simp only [readDecFx, bind_ok_iff, readSlot_ok_iff, readScale_ok_iff]
  constructor
  · rintro ⟨_, h1, _, h2, h3⟩; cases h3; exact ⟨h1, h2⟩
  · rintro ⟨h1, h2⟩; exact ⟨_, h1, _, h2, rfl⟩

theorem readEncFx_ok_iff (cfg : Config) (req : Request) (q : Rat) (scale : Nat) :
    readEncFx cfg req = .ok (q, scale) ↔
      req.qval = .val q ∧ req.scale = .val scale ∧ scaleInRange cfg.scaleMax scale = true := by
  simp only [readEncFx, bind_ok_iff, readSlot_ok_iff, readScale_ok_iff]
  constructor
  · rintro ⟨_, h1, _, h2, h3⟩; cases h3; exact ⟨h1, h2⟩
  · rintro ⟨h1, h2⟩; exact ⟨_, h1, _, h2, rfl⟩

theorem readLabels_ok_iff (w : Width) (req : Request) (labels : List Label) :
    readLabels w req = .ok labels ↔ req.labels = .val labels ∧ labelsInRange w labels = true := by
  simp only [readLabels, bind_ok_iff, readSlot_ok_iff]
  constructor
  · rintro ⟨_, h1, u, h2, h3⟩
    cases u; cases h3
    exact ⟨h1, (checkLabels_ok_iff _ _).mp h2⟩
  · rintro ⟨h1, h2⟩
    exact ⟨_, h1, (), (checkLabels_ok_iff _ _).mpr h2, rfl⟩

theorem readDecBf_ok_iff (w : Width) (req : Request) (b : Bytes) (labels : List Label) :
    readDecBf w req = .ok (b, labels) ↔
      req.input = .val b ∧ req.labels = .val labels ∧ labelsInRange w labels = true := by
  simp only [readDecBf, bind_ok_iff, readSlot_ok_iff, readLabels_ok_iff]
  constructor
  · rintro ⟨_, h1, _, h2, h3⟩; cases h3; exact ⟨h1, h2⟩
  · rintro ⟨h1, h2⟩; exact ⟨_, h1, _, h2, rfl⟩

theorem readEncBf_ok_iff (w : Width) (req : Request) (names : List LabelName) (labels : List Label) :
    readEncBf w req = .ok (names, labels) ↔
      req.names = .val names ∧ req.labels = .val labels ∧ labelsInRange w labels = true := by
  simp only [readEncBf, bind_ok_iff, readSlot_ok_iff, readLabels_ok_iff]
  constructor
  · rintro ⟨_, h1, _, h2, h3⟩; cases h3; exact ⟨h1, h2⟩
  · rintro ⟨h1, h2⟩; exact ⟨_, h1, _, h2, rfl⟩

theorem readRawWidth_ok_iff (req : Request) (n : Nat) :
    readRawWidth req = .ok n ↔ req.rwidth = .val n ∧ 1 ≤ n ∧ n ≤ 255 := by
  simp only [readRawWidth, bind_ok_iff, readSlot_ok_iff]
  constructor
  · rintro ⟨_, h1, u, h2, h3⟩
    cases u; cases h3
    exact ⟨h1, (checkRawWidth_ok_iff _).mp h2⟩
  · rintro ⟨h1, h2⟩
    exact ⟨_, h1, (), (checkRawWidth_ok_iff _).mpr h2, rfl⟩

theorem readDecRaw_ok_iff (req : Request) (b : Bytes) (n : Nat) :
    readDecRaw req = .ok (b, n) ↔ req.input = .val b ∧ req.rwidth = .val n ∧ 1 ≤ n ∧ n ≤ 255 := by
  simp only [readDecRaw, bind_ok_iff, readSlot_ok_iff, readRawWidth_ok_iff]
  constructor
  · rintro ⟨_, h1, _, h2, h3⟩; cases h3; exact ⟨h1, h2⟩
  · rintro ⟨h1, h2⟩; exact ⟨_, h1, _, h2, rfl⟩

theorem readEncRaw_ok_iff (req : Request) (b : Bytes) (n : Nat) :
    readEncRaw req = .ok (b, n) ↔ req.rawval = .val b ∧ req.rwidth = .val n ∧ 1 ≤ n ∧ n ≤ 255 := by
  simp only [readEncRaw, bind_ok_iff, readSlot_ok_iff, readRawWidth_ok_iff]
  constructor
  · rintro ⟨_, h1, _, h2, h3⟩; cases h3; exact ⟨h1, h2⟩
  · rintro ⟨h1, h2⟩; exact ⟨_, h1, _, h2, rfl⟩

end Sys2Proof.Machine
end

