-- ==== Sys2Proof/Laws/Exec.lean ====
section
/-! SUPPORT. What an operation can do, said once. `response` is an operation's answer as a function of the configuration
and the request alone (10_state.md R23); `exec` writes it and changes nothing else (R20). -/

namespace Sys2Proof.Machine

/-- The response of an operation, or why its request is refused. -/
def response (cfg : Config) (i : Instr) (req : Request) : Except Refusal Response :=
  match i with
  | .frmEnc => (readFrmEnc req).map fun (ct, addr, len, payload) => frmEnc cfg ct addr len payload
  | .frmDec => (readInput req).map (frmDec cfg)
  | .frmCsum => (readInput req).map frmCsum
  | .frmHunt => (readInput req).map (frmHunt cfg)
  | .valDecU w => (readInput req).map (decodeInteger .unsigned w)
  | .valEncU w => (readIval req).map (encodeInteger .unsigned w)
  | .valDecS w => (readInput req).map (decodeInteger .signed w)
  | .valEncS w => (readIval req).map (encodeInteger .signed w)
  | .valDecFx sg w => (readDecFx cfg req).map fun (b, scale) => decodeFixed sg w b scale
  | .valEncFx sg w => (readEncFx cfg req).map fun (q, scale) => encodeFixed sg w q scale
  | .valDecBf w => (readDecBf w req).map fun (b, labels) => decodeBits w b labels
  | .valEncBf w => (readEncBf w req).map fun (names, labels) => encodeBits w names labels
  | .valDecRaw => (readDecRaw req).map fun (b, n) => passRaw b n
  | .valEncRaw => (readEncRaw req).map fun (b, n) => passRaw b n

/-- Every operation concludes with its response. -/
theorem exec_eq_conclude (i : Instr) (s : State) : exec i s = s.conclude (response s.cfg i s.req) := by
  cases i <;> rfl

/-- If an operation answers a next state, it is the state with the operation's response. -/
theorem exec_next_iff (i : Instr) (s t : State) :
    exec i s = .next t ↔ ∃ rsp, response s.cfg i s.req = .ok rsp ∧ t = s.respond rsp := by
  rw [exec_eq_conclude, conclude_next_iff]

theorem exec_refused_iff (i : Instr) (s : State) (e : Refusal) :
    exec i s = .refused e ↔ response s.cfg i s.req = .error e := by
  rw [exec_eq_conclude, conclude_refused_iff]

theorem exec_ne_fault (i : Instr) (s : State) (f : Fault) : exec i s ≠ .fault f := by
  rw [exec_eq_conclude]; exact conclude_ne_fault _ _ _

theorem map_ok_iff {α : Type} (x : Except Refusal α) (f : α → Response) (r : Response) :
    x.map f = .ok r ↔ ∃ a, x = .ok a ∧ f a = r := by
  cases x <;> simp [Except.map]

/-- An operation has a response exactly when R65 items 6 to 10 call its request well-formed. -/
theorem response_ok_iff_wellFormed (cfg : Config) (i : Instr) (req : Request) :
    (∃ rsp, response cfg i req = .ok rsp) ↔ req.wellFormed cfg i = true := by
  have hval : ∀ {α : Type} (f : Slot α), f.isValue = true ↔ ∃ a, f = .val a := by
    intro α f; cases f <;> simp [Slot.isValue, Slot.value?]
  have hscale : ∀ f, scaleWellFormed cfg f = true ↔ ∃ n, f = .val n ∧ scaleInRange cfg.scaleMax n = true := by
    intro f; cases f <;> simp [scaleWellFormed]
  have hlabels : ∀ w f, labelsWellFormed w f = true ↔ ∃ ls, f = .val ls ∧ labelsInRange w ls = true := by
    intro w f; cases f <;> simp [labelsWellFormed]
  have hraw : ∀ f, rwidthWellFormed f = true ↔ ∃ n, f = .val n ∧ 1 ≤ n ∧ n ≤ 255 := by
    intro f; cases f <;> simp [rwidthWellFormed]
  have hfrm : frmEncWellFormed req = true ↔ ∃ ct addr len payload, req.ct = .val ct ∧ req.addr = .val addr ∧
      req.len = .val len ∧ req.payload = .val payload ∧ len = payload.length ∧ payload.length ≤ 255 ∧
      addr < 2 ^ 16 := by
    unfold frmEncWellFormed
    cases req.ct <;> cases req.addr <;> cases req.len <;> cases req.payload <;> simp [and_assoc]
  cases i <;>
    simp only [response, Request.wellFormed, map_ok_iff, Prod.exists, readInput_ok_iff, readIval_ok_iff,
      readFrmEnc_ok_iff, readDecFx_ok_iff, readEncFx_ok_iff, readDecBf_ok_iff, readEncBf_ok_iff, readDecRaw_ok_iff,
      readEncRaw_ok_iff, hval, hscale, hlabels, hraw, hfrm, Bool.and_eq_true] <;>
    constructor <;> (rintro h; aesop)

/-! The responses, one lemma each. -/

theorem lengthChecked_eq (n : Nat) (b : Bytes) (r : Response) (h : b.length = n) : lengthChecked n b r = r := by
  simp [lengthChecked, h]

theorem lengthChecked_ne (n : Nat) (b : Bytes) (r : Response) (h : b.length ≠ n) :
    lengthChecked n b r = raiseError .lengthMismatch := by
  simp [lengthChecked, h]

/-- What a length-checked operation can answer. -/
theorem lengthChecked_cases (n : Nat) (b : Bytes) (r : Response) :
    (b.length = n ∧ lengthChecked n b r = r) ∨
      (b.length ≠ n ∧ lengthChecked n b r = raiseError .lengthMismatch) := by
  by_cases h : b.length = n
  · exact .inl ⟨h, lengthChecked_eq n b r h⟩
  · exact .inr ⟨h, lengthChecked_ne n b r h⟩

theorem encodeUnsigned_cases (w : Width) (v : Int) :
    (0 ≤ v ∧ v < 2 ^ (8 * w.bytes) ∧
      encodeUnsigned w v = { status := some .ok, out := some (toBe w.bytes v.toNat) }) ∨
    ((v < 0 ∨ v ≥ 2 ^ (8 * w.bytes)) ∧ encodeUnsigned w v = raiseError .unrepresentable) := by
  unfold encodeUnsigned
  split
  · next h => exact .inr ⟨h, rfl⟩
  · next h => push Not at h; exact .inl ⟨h.1, h.2, rfl⟩

theorem encodeSigned_cases (w : Width) (v : Int) :
    (-2 ^ (8 * w.bytes - 1) ≤ v ∧ v < 2 ^ (8 * w.bytes - 1) ∧
      encodeSigned w v = { status := some .ok, out := some (toBe w.bytes (twos w.bytes v)) }) ∨
    ((v < -2 ^ (8 * w.bytes - 1) ∨ v ≥ 2 ^ (8 * w.bytes - 1)) ∧
      encodeSigned w v = raiseError .unrepresentable) := by
  unfold encodeSigned
  split
  · next h => exact .inr ⟨h, rfl⟩
  · next h => push Not at h; exact .inl ⟨h.1, h.2, rfl⟩

/-- Everything FRM.DEC can answer, in the order of its checks (R75, R79). -/
theorem frmDec_cases (cfg : Config) (b : Bytes) :
    (b.length < 7 + (byteAt b 5).toNat ∧ frmDec cfg b = raiseError .truncated) ∨
    (7 + (byteAt b 5).toNat ≤ b.length ∧
      byteAt b (6 + (byteAt b 5).toNat) ≠ csum (b.take (6 + (byteAt b 5).toNat)) ∧
      frmDec cfg b = raiseError .badChecksum) ∨
    (7 + (byteAt b 5).toNat ≤ b.length ∧
      byteAt b (6 + (byteAt b 5).toNat) = csum (b.take (6 + (byteAt b 5).toNat)) ∧
      cfg.ctOf (byteAt b 2) = none ∧ frmDec cfg b = raiseError .unknownCommandType) ∨
    (7 + (byteAt b 5).toNat ≤ b.length ∧
      byteAt b (6 + (byteAt b 5).toNat) = csum (b.take (6 + (byteAt b 5).toNat)) ∧
      ∃ ct, cfg.ctOf (byteAt b 2) = some ct ∧
        frmDec cfg b = { status := some .ok, frame := some (parsedFrame b ct),
                         consumed := some (7 + (byteAt b 5).toNat) }) := by
  unfold frmDec
  by_cases h6 : b.length < 6
  · exact .inl ⟨by omega, by simp [h6]⟩
  · by_cases h7 : b.length < 7 + (byteAt b 5).toNat
    · exact .inl ⟨h7, by simp [h6, h7]⟩
    · refine .inr ?_
      by_cases hc : byteAt b (6 + (byteAt b 5).toNat) = csum (b.take (6 + (byteAt b 5).toNat))
      · refine .inr ?_
        cases ht : cfg.ctOf (byteAt b 2) with
        | none => exact .inl ⟨by omega, hc, rfl, by simp [h6, h7, hc]⟩
        | some ct => exact .inr ⟨by omega, hc, ct, rfl, by simp [h6, h7, hc]⟩
      · exact .inl ⟨by omega, hc, by simp [h6, h7, hc]⟩

/-- A hunt finds the first start byte, at most `window` bytes in (R85). -/
theorem huntFrom_some_iff (start : Byte) (b : Bytes) (window k : Nat) :
    huntFrom start b window = some k ↔
      k ≤ window ∧ b[k]? = some start ∧ ∀ j < k, b[j]? ≠ some start := by
  induction b generalizing window k with
  | nil => simp [huntFrom]
  | cons x b ih =>
    unfold huntFrom
    split
    · next hx =>
      constructor
      · intro h
        obtain rfl : k = 0 := by simpa using h.symm
        simp [hx]
      · rintro ⟨-, -, h⟩
        rcases Nat.eq_zero_or_pos k with rfl | hk
        · rfl
        · exact absurd (by simp [hx]) (h 0 hk)
    · next hx =>
      cases window with
      | zero =>
        simp only [reduceCtorEq, Nat.le_zero, false_iff]
        rintro ⟨rfl, h, -⟩
        exact hx (by simpa using h)
      | succ left =>
        simp only [Option.map_eq_some_iff, ih]
        constructor
        · rintro ⟨m, ⟨h1, h2, h3⟩, rfl⟩
          refine ⟨by omega, by simpa using h2, ?_⟩
          intro j hj
          cases j with
          | zero => simpa using hx
          | succ j => simpa using h3 j (by omega)
        · rintro ⟨h1, h2, h3⟩
          cases k with
          | zero => exact absurd (by simpa using h2) hx
          | succ k =>
            refine ⟨k, ⟨by omega, by simpa using h2, ?_⟩, rfl⟩
            intro j hj
            simpa using h3 (j + 1) (by omega)

theorem huntFrom_none_iff (start : Byte) (b : Bytes) (window : Nat) :
    huntFrom start b window = none ↔ ∀ k ≤ window, b[k]? ≠ some start := by
  constructor
  · intro h k hk he
    have hex : ∃ k, b[k]? = some start := ⟨k, he⟩
    have hmin : ∀ j < Nat.find hex, b[j]? ≠ some start := fun j hj => Nat.find_min hex hj
    have hle : Nat.find hex ≤ window := le_trans (Nat.find_min' hex he) hk
    have := (huntFrom_some_iff start b window (Nat.find hex)).mpr ⟨hle, Nat.find_spec hex, hmin⟩
    simp [this] at h
  · intro h
    rw [Option.eq_none_iff_forall_ne_some]
    intro k hk
    obtain ⟨h1, h2, -⟩ := (huntFrom_some_iff start b window k).mp hk
    exact h k h1 h2

end Sys2Proof.Machine
end

