-- ==== Sys2Proof/Laws/Step.lean ====
section
/-! SUPPORT. What one step, one performed request and one host action can do, said once. -/

namespace Sys2Proof.Machine

theorem fetch_ok_iff (req : Request) (i : Instr) :
    fetch req = .ok i ↔ ∃ o, req.opc = .val o ∧ decodeOpc o = .ok i := by
  unfold fetch
  cases req.opc with
  | noValue => simp [readSlot]
  | wrongType => simp [readSlot]
  | val o => cases h : decodeOpc o <;> simp [h]

theorem step_idle (s : State) (h : s.inFlight = false) : step s = .next s := by simp [step, h]

theorem step_inFlight (s : State) (h : s.inFlight = true) :
    step s = match fetch s.req with
      | .ok i => exec i s
      | .error e => .refused e := by
  cases hf : fetch s.req <;> simp [step, h, hf]

/-- If a step answers a next state, then nothing was in flight and nothing changed, or the operation the request asks for
ran and its response is the only change. -/
theorem step_next_cases (s t : State) (h : step s = .next t) :
    (s.inFlight = false ∧ t = s) ∨
    (s.inFlight = true ∧ ∃ i rsp, fetch s.req = .ok i ∧ response s.cfg i s.req = .ok rsp ∧ t = s.respond rsp) := by
  cases hf : s.inFlight with
  | false =>
    rw [step_idle s hf] at h
    exact .inl ⟨rfl, by simpa using h.symm⟩
  | true =>
    refine .inr ⟨rfl, ?_⟩
    rw [step_inFlight s hf] at h
    split at h
    · next i hi =>
      obtain ⟨rsp, h1, h2⟩ := (exec_next_iff i s t).mp h
      exact ⟨i, rsp, hi, h1, h2⟩
    · simp at h

/-- The configuration never changes (R26). -/
theorem step_cfg (s t : State) (h : step s = .next t) : t.cfg = s.cfg := by
  obtain ⟨-, rfl⟩ | ⟨-, i, rsp, -, -, rfl⟩ := step_next_cases s t h <;> simp

/-- Performing a request from an idle state is one run of the operation it asks for. -/
theorem perform_idle (s : State) (r : Request) (h : s.inFlight = false) (i : Instr) (hi : fetch r = .ok i) :
    perform r s = exec i { s with req := r, inFlight := true } := by
  simp [perform, issue_idle s r h, step, hi]

/-- While a request is in flight, and while the response record is empty, no response field can be read (R45, R151). -/
theorem everyReadFaults_of (s : State) (h : s.inFlight = true ∨ s.rsp = {}) : everyReadFaults s := by
  have faults : ∀ {α : Type} (f : ResponseField) (v : Response → Option α), (s.rsp = {} → v s.rsp = none) →
      readFaults (s.readField f v) := by
    intro α f v hv
    cases hf : s.inFlight with
    | true => exact ⟨_, readField_pending s f v hf⟩
    | false =>
      rw [readField_idle s f v hf, hv (h.resolve_left (by simp [hf]))]
      exact ⟨_, rfl⟩
  refine ⟨faults _ _ ?_, faults _ _ ?_, faults _ _ ?_, faults _ _ ?_, faults _ _ ?_, faults _ _ ?_, faults _ _ ?_,
    faults _ _ ?_, faults _ _ ?_, faults _ _ ?_⟩ <;> (intro hr; rw [hr])

end Sys2Proof.Machine
end

