-- ==== Sys2Proof/Laws/Duty.lean ====
section
/-! SUPPORT. Running programs of requests, and the check of the host's duty on their transcripts (70_reset_and_hazards.md
R160). -/

namespace Sys2Proof.Machine

theorem runRequests_append (rs rs' : List Request) (s u : State) (h : runRequests rs s = .next u) :
    runRequests (rs ++ rs') s = runRequests rs' u := by
  induction rs generalizing s with
  | nil =>
    simp only [runRequests, Host.Outcome.next.injEq] at h
    rw [List.nil_append, h]
  | cons r rs ih =>
    unfold runRequests at h
    cases hp : perform r s with
    | next t =>
      rw [hp] at h
      simpa [runRequests, hp] using ih t h
    | fault f =>
      rw [hp] at h
      cases h
    | refused e =>
      rw [hp] at h
      cases h

theorem transcript_append (rs rs' : List Request) (s u : State) (h : runRequests rs s = .next u) :
    transcript (rs ++ rs') s = transcript rs s ++ transcript rs' u := by
  induction rs generalizing s with
  | nil =>
    simp only [runRequests, Host.Outcome.next.injEq] at h
    rw [h]
    rfl
  | cons r rs ih =>
    unfold runRequests at h
    cases hp : perform r s with
    | next t =>
      rw [hp] at h
      simp [transcript, hp, ih t h]
    | fault f =>
      rw [hp] at h
      cases h
    | refused e =>
      rw [hp] at h
      cases h

/-- A performed request leaves nothing in flight and the configuration as it was. -/
theorem perform_next (r : Request) (s t : State) (h : perform r s = .next t) :
    t.inFlight = false ∧ t.cfg = s.cfg := by
  unfold perform at h
  cases hi : s.issue r with
  | fault f =>
    rw [hi] at h
    cases h
  | refused e =>
    rw [hi] at h
    cases h
  | next u =>
    rw [hi] at h
    obtain ⟨-, rfl⟩ := (issue_next_iff s u r).mp hi
    obtain ⟨hf, -⟩ | ⟨-, i, rsp, -, -, rfl⟩ := step_next_cases _ t h
    · cases hf
    · exact ⟨rfl, rfl⟩

/-- A program that ran to its end from an idle block leaves it idle, with the configuration as it was. -/
theorem runRequests_next (rs : List Request) (s u : State) (hs : s.inFlight = false) (h : runRequests rs s = .next u) :
    u.inFlight = false ∧ u.cfg = s.cfg := by
  induction rs generalizing s with
  | nil =>
    simp only [runRequests, Host.Outcome.next.injEq] at h
    exact h ▸ ⟨hs, rfl⟩
  | cons r rs ih =>
    unfold runRequests at h
    cases hp : perform r s with
    | next t =>
      rw [hp] at h
      obtain ⟨hf, hc⟩ := perform_next r s t hp
      obtain ⟨h1, h2⟩ := ih t hf h
      exact ⟨h1, h2.trans hc⟩
    | fault f =>
      rw [hp] at h
      cases h
    | refused e =>
      rw [hp] at h
      cases h

/-- The check of a transcript followed by another goes on with the Error payloads of the first: none is forgotten. -/
theorem breaksDutyFrom_append (payloads : List Bytes) (es es' : List Exchange) :
    breaksDutyFrom payloads (es ++ es') =
      (breaksDutyFrom payloads es || breaksDutyFrom ((es.map errorPayloads).reverse.flatten ++ payloads) es') := by
  induction es generalizing payloads with
  | nil => rfl
  | cons e es ih => simp [breaksDutyFrom, ih, Bool.or_assoc]

/-- A request is among those that the check flags exactly when it asks for a VAL.DEC of one of the payloads. -/
theorem decodesOneOf_iff (payloads : List Bytes) (r : Request) :
    decodesOneOf payloads r = true ↔
      ∃ i b, fetch r = .ok i ∧ Instr.isValueDecode i = true ∧ b ∈ payloads ∧ r.input = .val b := by
  unfold decodesOneOf
  cases fetch r <;> simp

end Sys2Proof.Machine
end

