-- ==== Sys2Proof/Laws/Frame.lean ====
section
/-! SUPPORT. Frames as byte sequences (30_encoding.md R50): what FRM.DEC reads back from a sequence that is a header, a
payload, the checksum of both and any bytes after them (40_frame.md R75, R78, R81). -/

namespace Sys2Proof.Machine

/-- The bytes of a frame with any six header bytes. -/
def anyFrame (h0 h1 h2 h3 h4 h5 : Byte) (payload : Bytes) : Bytes :=
  [h0, h1, h2, h3, h4, h5] ++ payload ++ [csum ([h0, h1, h2, h3, h4, h5] ++ payload)]

theorem frameBytes_eq (cfg : Config) (ct : CommandType) (addr len : Nat) (payload : Bytes) :
    frameBytes cfg ct addr len payload =
      anyFrame cfg.startByte cfg.protocolByte (cfg.code ct) (BitVec.ofNat 8 (addr / 256))
        (BitVec.ofNat 8 (addr % 256)) (BitVec.ofNat 8 len) payload := rfl

theorem anyFrame_length (h0 h1 h2 h3 h4 h5 : Byte) (payload : Bytes) :
    (anyFrame h0 h1 h2 h3 h4 h5 payload).length = 7 + payload.length := by
  simp [anyFrame]; omega

@[simp] theorem frameBytes_length (cfg : Config) (ct : CommandType) (addr len : Nat) (payload : Bytes) :
    (frameBytes cfg ct addr len payload).length = 7 + payload.length := by
  rw [frameBytes_eq, anyFrame_length]

/-- The byte at the checksum's place is the checksum. -/
theorem byteAt_checksum (body tail : Bytes) (c : Byte) : byteAt (body ++ [c] ++ tail) body.length = c := by
  simp [byteAt]

/-- The Frame record of a frame's bytes. -/
theorem parsedFrame_anyFrame (h0 h1 h2 h3 h4 h5 : Byte) (payload tail : Bytes) (ct : CommandType)
    (hp : payload.length = h5.toNat) :
    parsedFrame (anyFrame h0 h1 h2 h3 h4 h5 payload ++ tail) ct =
      { startByte := h0, protocolByte := h1, commandType := ct, address := h3.toNat * 256 + h4.toNat,
        length := h5.toNat, payload := payload, checksum := csum ([h0, h1, h2, h3, h4, h5] ++ payload) } := by
  have hc := byteAt_checksum ([h0, h1, h2, h3, h4, h5] ++ payload) tail (csum ([h0, h1, h2, h3, h4, h5] ++ payload))
  have hl : ([h0, h1, h2, h3, h4, h5] ++ payload).length = 6 + h5.toNat := by simp [hp]; omega
  rw [hl] at hc
  have hpl : List.take h5.toNat (payload ++ ([csum ([h0, h1, h2, h3, h4, h5] ++ payload)] ++ tail)) = payload := by
    rw [← hp]; exact List.take_left' rfl
  have h5' : byteAt (anyFrame h0 h1 h2 h3 h4 h5 payload ++ tail) 5 = h5 := rfl
  unfold parsedFrame
  rw [h5']
  unfold anyFrame
  rw [hc]
  congr 1
  simpa using hpl

/-- A sequence that holds a frame of a recognised type decodes to it, whatever its first two bytes and whatever follows it
(R75, R77, R78). -/
theorem frmDec_anyFrame (cfg : Config) (h0 h1 h2 h3 h4 h5 : Byte) (payload tail : Bytes) (ct : CommandType)
    (hp : payload.length = h5.toNat) (hct : cfg.code ct = h2) :
    frmDec cfg (anyFrame h0 h1 h2 h3 h4 h5 payload ++ tail) =
      { status := some .ok
        frame := some { startByte := h0, protocolByte := h1, commandType := ct, address := h3.toNat * 256 + h4.toNat,
                        length := h5.toNat, payload := payload,
                        checksum := csum ([h0, h1, h2, h3, h4, h5] ++ payload) }
        consumed := some (7 + payload.length) } := by
  have hlen : (anyFrame h0 h1 h2 h3 h4 h5 payload ++ tail).length = 7 + h5.toNat + tail.length := by
    rw [List.length_append, anyFrame_length, hp]
  have h5' : byteAt (anyFrame h0 h1 h2 h3 h4 h5 payload ++ tail) 5 = h5 := rfl
  have h2' : byteAt (anyFrame h0 h1 h2 h3 h4 h5 payload ++ tail) 2 = h2 := rfl
  have hl : ([h0, h1, h2, h3, h4, h5] ++ payload).length = 6 + h5.toNat := by simp [hp]; omega
  have hc : byteAt (anyFrame h0 h1 h2 h3 h4 h5 payload ++ tail) (6 + h5.toNat) =
      csum ([h0, h1, h2, h3, h4, h5] ++ payload) := by
    rw [← hl]; exact byteAt_checksum _ _ _
  have ht : (anyFrame h0 h1 h2 h3 h4 h5 payload ++ tail).take (6 + h5.toNat) = [h0, h1, h2, h3, h4, h5] ++ payload := by
    rw [← hl, anyFrame, List.append_assoc]; exact List.take_left' rfl
  have hctof := (cfg.ctOf_eq_some_iff h2 ct).mpr hct
  have hpf := parsedFrame_anyFrame h0 h1 h2 h3 h4 h5 payload tail ct hp
  unfold frmDec
  dsimp only
  rw [h5', h2', hc, ht, hctof, hlen, hp]
  dsimp only
  rw [hpf, if_neg (by omega), if_neg (by omega), if_neg (by simp)]

/-- Bytes after the frame change nothing (R78). -/
theorem frmDec_append (cfg : Config) (b tail : Bytes) (h6 : 6 ≤ b.length) (h : 7 + (byteAt b 5).toNat ≤ b.length) :
    frmDec cfg (b ++ tail) = frmDec cfg b := by
  have hat : ∀ i, i < b.length → byteAt (b ++ tail) i = byteAt b i := fun i hi => byteAt_append_left b tail i hi
  have ht : (b ++ tail).take (6 + (byteAt b 5).toNat) = b.take (6 + (byteAt b 5).toNat) :=
    List.take_append_of_le_length (by omega)
  have hd : ((b ++ tail).drop 6).take (byteAt b 5).toNat = (b.drop 6).take (byteAt b 5).toNat := by
    rw [List.drop_append_of_le_length h6]
    exact List.take_append_of_le_length (by rw [List.length_drop]; omega)
  have hpf : ∀ ct, parsedFrame (b ++ tail) ct = parsedFrame b ct := by
    intro ct
    unfold parsedFrame
    rw [hat 5 (by omega), hat 0 (by omega), hat 1 (by omega), hat 3 (by omega), hat 4 (by omega), hd,
      hat (6 + (byteAt b 5).toNat) (by omega)]
  unfold frmDec
  dsimp only
  rw [hat 5 (by omega), hat 2 (by omega), hat (6 + (byteAt b 5).toNat) (by omega), ht, List.length_append]
  simp only [hpf]
  have hle : ¬ b.length + tail.length < 7 + (byteAt b 5).toNat := by omega
  have hle6 : ¬ b.length + tail.length < 6 := by omega
  simp [Nat.not_lt.mpr h6, Nat.not_lt.mpr h, hle, hle6]

end Sys2Proof.Machine
end

