-- ==== Sys2Proof/Laws/PerInstr.lean ====
section
/-! SUPPORT. A statement about every operation as syntax, one lemma per constructor: its `opc` byte lies in its row of
spec/opcode_table.json, and the row's reserved bits are 0 (30_encoding.md R60). -/

namespace Sys2Proof.Laws

/-- The `mask` column of the opcode table. -/
def tableMask : Instr → Opc
  | .frmEnc => 0xFF
  | .frmDec => 0xFF
  | .frmCsum => 0xFF
  | .frmHunt => 0xFF
  | .valDecU _ => 0xFC
  | .valEncU _ => 0xFC
  | .valDecS _ => 0xFC
  | .valEncS _ => 0xFC
  | .valDecFx _ _ => 0xF8
  | .valEncFx _ _ => 0xF8
  | .valDecBf _ => 0xFC
  | .valEncBf _ => 0xFC
  | .valDecRaw => 0xFF
  | .valEncRaw => 0xFF

/-- The `match` column of the opcode table. -/
def tableMatch : Instr → Opc
  | .frmEnc => 0x00
  | .frmDec => 0x10
  | .frmCsum => 0x20
  | .frmHunt => 0x30
  | .valDecU _ => 0x40
  | .valEncU _ => 0x50
  | .valDecS _ => 0x60
  | .valEncS _ => 0x70
  | .valDecFx _ _ => 0x80
  | .valEncFx _ _ => 0x90
  | .valDecBf _ => 0xA0
  | .valEncBf _ => 0xB0
  | .valDecRaw => 0xC0
  | .valEncRaw => 0xD0

namespace TableRow

/-- The operation's `opc` byte matches its row, and WC is not the reserved code 11. -/
def Statement (i : Instr) : Prop := encode i &&& tableMask i = tableMatch i ∧ encode i &&& 3 ≠ 3

theorem frmEnc : Statement .frmEnc := by unfold Statement; decide
theorem frmDec : Statement .frmDec := by unfold Statement; decide
theorem frmCsum : Statement .frmCsum := by unfold Statement; decide
theorem frmHunt : Statement .frmHunt := by unfold Statement; decide
theorem valDecU (w : Width) : Statement (.valDecU w) := by unfold Statement; cases w <;> decide
theorem valEncU (w : Width) : Statement (.valEncU w) := by unfold Statement; cases w <;> decide
theorem valDecS (w : Width) : Statement (.valDecS w) := by unfold Statement; cases w <;> decide
theorem valEncS (w : Width) : Statement (.valEncS w) := by unfold Statement; cases w <;> decide
theorem valDecFx (sg : Signedness) (w : Width) : Statement (.valDecFx sg w) := by
  unfold Statement; cases sg <;> cases w <;> decide
theorem valEncFx (sg : Signedness) (w : Width) : Statement (.valEncFx sg w) := by
  unfold Statement; cases sg <;> cases w <;> decide
theorem valDecBf (w : Width) : Statement (.valDecBf w) := by unfold Statement; cases w <;> decide
theorem valEncBf (w : Width) : Statement (.valEncBf w) := by unfold Statement; cases w <;> decide
theorem valDecRaw : Statement .valDecRaw := by unfold Statement; decide
theorem valEncRaw : Statement .valEncRaw := by unfold Statement; decide

end TableRow

end Sys2Proof.Laws
end

