-- ==== Sys2Proof/Laws/Refusals.lean ====
section
/-! SUPPORT. What is refused (30_encoding.md R65): the decoder and the operand checks agree with the ten items as `illFormed`
writes them out. -/

namespace Sys2Proof.Machine

theorem decodeOpc_encode (i : Instr) : decodeOpc (encode i) = .ok i := by
  cases i <;> (try cases ‹Signedness›) <;> (try cases ‹Width›) <;> rfl

/-- Items 1 to 5 of R65 are exactly what the decoder refuses; the 256 `opc` bytes are gone through one by one. -/
theorem decodeOpc_error_iff (o : Opc) : (∃ e, decodeOpc o = .error e) ↔ illFormedOpcode o := by
  have all : ∀ o : Opc, (match decodeOpc o with | .ok _ => false | .error _ => true) = true ↔ illFormedOpcode o := by
    unfold illFormedOpcode; decide +kernel
  rw [← all o]
  cases decodeOpc o <;> simp

theorem decodeOpc_ok_encode (o : Opc) (i : Instr) (h : decodeOpc o = .ok i) : encode i = o := by
  have all : ∀ o : Opc, (match decodeOpc o with | .ok i => decide (encode i = o) | .error _ => true) = true := by
    decide +kernel
  simpa [h] using all o

theorem Slot.absent_or {α : Type} (f : Slot α) : Slot.absent f ∨ ∃ a, f = .val a := by
  cases f <;> simp [Slot.absent]

@[simp] theorem Slot.isValue_iff {α : Type} (f : Slot α) : f.isValue = true ↔ ¬ Slot.absent f := by
  cases f <;> simp [Slot.isValue, Slot.value?]

/-- Items 6 and 10 of R65 for FRM.ENC. -/
theorem frmEncWellFormed_iff (req : Request) :
    frmEncWellFormed req = true ↔
      ¬ (∃ addr len payload, req.addr = .val addr ∧ req.len = .val len ∧ req.payload = .val payload ∧
        (len ≠ payload.length ∨ payload.length > 255 ∨ addr ≥ 2 ^ 16)) ∧
      ¬ (Slot.absent req.ct ∨ Slot.absent req.addr ∨ Slot.absent req.len ∨ Slot.absent req.payload) := by
  unfold frmEncWellFormed
  cases req.ct <;> cases req.addr <;> cases req.len <;> cases req.payload <;> simp [and_assoc]

/-- Items 7 and 10 of R65 for a scale. -/
theorem scaleWellFormed_iff (cfg : Config) (f : Slot Nat) :
    scaleWellFormed cfg f = true ↔
      ¬ (∃ scale, f = .val scale ∧ (scale < 1 ∨ ∃ top, cfg.scaleMax = .atMost top ∧ scale > top)) ∧
      ¬ Slot.absent f := by
  unfold scaleWellFormed scaleInRange
  cases f <;> cases cfg.scaleMax <;> simp [← Nat.one_le_iff_ne_zero]

/-- Items 8 and 10 of R65 for a label table. -/
theorem labelsWellFormed_iff (w : Width) (f : Slot (List Label)) :
    labelsWellFormed w f = true ↔
      ¬ (∃ labels, f = .val labels ∧
        (¬ (labels.map Label.name).Nodup ∨ ¬ (labels.map Label.bit).Nodup ∨ ∃ l ∈ labels, l.bit ≥ 8 * w.bytes)) ∧
      ¬ Slot.absent f := by
  unfold labelsWellFormed labelsInRange
  cases f <;> simp [and_assoc]

/-- Items 9 and 10 of R65 for a Raw width. -/
theorem rwidthWellFormed_iff (f : Slot Nat) :
    rwidthWellFormed f = true ↔ ¬ (∃ n, f = .val n ∧ (n < 1 ∨ n > 255)) ∧ ¬ Slot.absent f := by
  unfold rwidthWellFormed
  cases f <;> simp [← Nat.one_le_iff_ne_zero]

/-- Items 6 to 10 of R65 are exactly what `Request.wellFormed` shuts out. -/
theorem wellFormed_iff (cfg : Config) (i : Instr) (req : Request) :
    Request.wellFormed cfg i req = true ↔
      ¬ illFormedOperands cfg req ((encode i).toNat / 16) (2 ^ ((encode i).toNat % 4)) := by
  cases i <;> (try cases ‹Signedness›) <;> (try cases ‹Width›) <;>
    simp only [Request.wellFormed, illFormedOperands, encode, Instr.op, Instr.sBit, Instr.wc, Width.code, Signedness.bit,
      Bool.and_eq_true, Slot.isValue_iff, frmEncWellFormed_iff, scaleWellFormed_iff, labelsWellFormed_iff,
      rwidthWellFormed_iff, Width.bytes] <;>
    norm_num <;> tauto

end Sys2Proof.Machine
end

