-- ==== Sys2Proof/Laws/Shape.lean ====
section
/-! SUPPORT. Every answer an operation can give, said once: an error of its row of 60_exceptions.md R131, or OK with exactly
the fields of its rows of 10_state.md R22. Claims over all operations are case splits of this. -/

namespace Sys2Proof.Machine

/-- The errors of R131, row by row. -/
def raises (i : Instr) (e : Status) : Prop :=
  match i with
  | .frmEnc => False
  | .frmCsum => False
  | .frmDec => e = .truncated ∨ e = .badChecksum ∨ e = .unknownCommandType
  | .frmHunt => e = .truncated
  | .valDecU _ => e = .lengthMismatch
  | .valDecS _ => e = .lengthMismatch
  | .valEncU _ => e = .unrepresentable
  | .valEncS _ => e = .unrepresentable
  | .valDecFx _ _ => e = .lengthMismatch
  | .valEncFx _ _ => e = .unrepresentable
  | .valDecBf _ => e = .lengthMismatch
  | .valEncBf _ => e = .unrepresentable
  | .valDecRaw => e = .lengthMismatch
  | .valEncRaw => e = .lengthMismatch

theorem raises_ne_ok (i : Instr) (e : Status) (h : raises i e) : e ≠ .ok := by
  rintro rfl; cases i <;> simp [raises] at h

/-- The shapes of an answer. -/
inductive Answer (cfg : Config) (req : Request) : Instr → Response → Prop where
  | error (i : Instr) (e : Status) (h : raises i e) : Answer cfg req i (raiseError e)
  | frmEnc (out : Bytes) : Answer cfg req .frmEnc { status := some .ok, out := some out }
  | frmDec (b : Bytes) (ct : CommandType) (hb : req.input = .val b) (hl : 7 + (byteAt b 5).toNat ≤ b.length)
      (hc : byteAt b (6 + (byteAt b 5).toNat) = csum (b.take (6 + (byteAt b 5).toNat)))
      (hct : cfg.code ct = byteAt b 2) :
      Answer cfg req .frmDec
        { status := some .ok, frame := some (parsedFrame b ct), consumed := some (7 + (byteAt b 5).toNat) }
  | frmCsum (c : Byte) : Answer cfg req .frmCsum { status := some .ok, csum := some c }
  | frmHunt (k : Nat) : Answer cfg req .frmHunt { status := some .ok, skip := some k }
  | valDecU (w : Width) (v : Int) : Answer cfg req (.valDecU w) { status := some .ok, ival := some v }
  | valDecS (w : Width) (v : Int) : Answer cfg req (.valDecS w) { status := some .ok, ival := some v }
  | valEncU (w : Width) (out : Bytes) : Answer cfg req (.valEncU w) { status := some .ok, out := some out }
  | valEncS (w : Width) (out : Bytes) : Answer cfg req (.valEncS w) { status := some .ok, out := some out }
  | valDecFx (sg : Signedness) (w : Width) (v : Int) (q : Rat) :
      Answer cfg req (.valDecFx sg w) { status := some .ok, ival := some v, qval := some q }
  | valEncFx (sg : Signedness) (w : Width) (out : Bytes) :
      Answer cfg req (.valEncFx sg w) { status := some .ok, out := some out }
  | valDecBf (w : Width) (v : Int) (ns : List LabelName) (rest : Nat) (h : ns.Pairwise (· < ·)) :
      Answer cfg req (.valDecBf w)
        { status := some .ok, ival := some v, names := some ns, unlabelled := some rest }
  | valEncBf (w : Width) (out : Bytes) : Answer cfg req (.valEncBf w) { status := some .ok, out := some out }
  | valDecRaw (out : Bytes) : Answer cfg req .valDecRaw { status := some .ok, out := some out }
  | valEncRaw (out : Bytes) : Answer cfg req .valEncRaw { status := some .ok, out := some out }

theorem encodeInteger_cases (sg : Signedness) (w : Width) (v : Int) :
    encodeInteger sg w v = raiseError .unrepresentable ∨
      ∃ out, encodeInteger sg w v = { status := some .ok, out := some out } := by
  cases sg with
  | unsigned =>
    rcases encodeUnsigned_cases w v with ⟨-, -, h⟩ | ⟨-, h⟩
    · exact .inr ⟨_, h⟩
    · exact .inl h
  | signed =>
    rcases encodeSigned_cases w v with ⟨-, -, h⟩ | ⟨-, h⟩
    · exact .inr ⟨_, h⟩
    · exact .inl h

/-- A response of an operation has one of the shapes. -/
theorem response_answer (cfg : Config) (i : Instr) (req : Request) (r : Response)
    (h : response cfg i req = .ok r) : Answer cfg req i r := by
  cases i with
  | frmEnc =>
    obtain ⟨⟨_, _, _, _⟩, -, rfl⟩ := (map_ok_iff _ _ _).mp h
    exact .frmEnc _
  | frmDec =>
    obtain ⟨b, hb, rfl⟩ := (map_ok_iff _ _ _).mp h
    rcases frmDec_cases cfg b with ⟨-, e⟩ | ⟨-, -, e⟩ | ⟨-, -, -, e⟩ | ⟨hl, hc, ct, hct, e⟩ <;> rw [e]
    · exact .error _ _ (.inl rfl)
    · exact .error _ _ (.inr (.inl rfl))
    · exact .error _ _ (.inr (.inr rfl))
    · exact .frmDec b ct ((readInput_ok_iff _ _).mp hb) hl hc ((cfg.ctOf_eq_some_iff _ _).mp hct)
  | frmCsum =>
    obtain ⟨b, -, rfl⟩ := (map_ok_iff _ _ _).mp h
    exact .frmCsum _
  | frmHunt =>
    obtain ⟨b, -, rfl⟩ := (map_ok_iff _ _ _).mp h
    unfold frmHunt
    split
    · exact .frmHunt _
    · exact .error _ _ rfl
  | valDecU w =>
    obtain ⟨b, -, rfl⟩ := (map_ok_iff _ _ _).mp h
    rcases lengthChecked_cases w.bytes b _ with ⟨-, e⟩ | ⟨-, e⟩ <;> (unfold decodeInteger; rw [e])
    · exact .valDecU _ _
    · exact .error _ _ rfl
  | valDecS w =>
    obtain ⟨b, -, rfl⟩ := (map_ok_iff _ _ _).mp h
    rcases lengthChecked_cases w.bytes b _ with ⟨-, e⟩ | ⟨-, e⟩ <;> (unfold decodeInteger; rw [e])
    · exact .valDecS _ _
    · exact .error _ _ rfl
  | valEncU w =>
    obtain ⟨v, -, rfl⟩ := (map_ok_iff _ _ _).mp h
    rcases encodeInteger_cases .unsigned w v with e | ⟨out, e⟩ <;> rw [e]
    · exact .error _ _ rfl
    · exact .valEncU _ _
  | valEncS w =>
    obtain ⟨v, -, rfl⟩ := (map_ok_iff _ _ _).mp h
    rcases encodeInteger_cases .signed w v with e | ⟨out, e⟩ <;> rw [e]
    · exact .error _ _ rfl
    · exact .valEncS _ _
  | valDecFx sg w =>
    obtain ⟨⟨b, scale⟩, -, rfl⟩ := (map_ok_iff _ _ _).mp h
    rcases lengthChecked_cases w.bytes b _ with ⟨-, e⟩ | ⟨-, e⟩ <;> (dsimp only [decodeFixed]; rw [e])
    · exact .valDecFx _ _ _ _
    · exact .error _ _ rfl
  | valEncFx sg w =>
    obtain ⟨⟨q, scale⟩, -, rfl⟩ := (map_ok_iff _ _ _).mp h
    dsimp only [encodeFixed]
    rcases encodeInteger_cases sg w (roundHaz (timesScale q scale)) with e | ⟨out, e⟩ <;> rw [e]
    · exact .error _ _ rfl
    · exact .valEncFx _ _ _
  | valDecBf w =>
    obtain ⟨⟨b, labels⟩, -, rfl⟩ := (map_ok_iff _ _ _).mp h
    rcases lengthChecked_cases w.bytes b _ with ⟨-, e⟩ | ⟨-, e⟩ <;> (dsimp only [decodeBits]; rw [e])
    · exact .valDecBf _ _ _ _ (nameSet_sorted _)
    · exact .error _ _ rfl
  | valEncBf w =>
    obtain ⟨⟨names, labels⟩, -, rfl⟩ := (map_ok_iff _ _ _).mp h
    dsimp only [encodeBits]
    split
    · exact .valEncBf _ _
    · exact .error _ _ rfl
  | valDecRaw =>
    obtain ⟨⟨b, n⟩, -, rfl⟩ := (map_ok_iff _ _ _).mp h
    rcases lengthChecked_cases n b _ with ⟨-, e⟩ | ⟨-, e⟩ <;> (dsimp only [passRaw]; rw [e])
    · exact .valDecRaw _
    · exact .error _ _ rfl
  | valEncRaw =>
    obtain ⟨⟨b, n⟩, -, rfl⟩ := (map_ok_iff _ _ _).mp h
    rcases lengthChecked_cases n b _ with ⟨-, e⟩ | ⟨-, e⟩ <;> (dsimp only [passRaw]; rw [e])
    · exact .valEncRaw _
    · exact .error _ _ rfl

/-- If a step answers a next state, then nothing was in flight and nothing changed, or the state has a new answer. -/
theorem step_answer (s t : State) (h : step s = .next t) :
    (s.inFlight = false ∧ t = s) ∨
      (s.inFlight = true ∧ ∃ i rsp, fetch s.req = .ok i ∧ Answer s.cfg s.req i rsp ∧ t = s.respond rsp) := by
  obtain h | ⟨hf, i, rsp, hi, hr, ht⟩ := step_next_cases s t h
  · exact .inl h
  · exact .inr ⟨hf, i, rsp, hi, response_answer _ _ _ _ hr, ht⟩

/-- The Frame that a good parse gives is well-formed (R76). -/
theorem parsedFrame_wf (cfg : Config) (b : Bytes) (ct : CommandType) (hl : 7 + (byteAt b 5).toNat ≤ b.length)
    (hc : byteAt b (6 + (byteAt b 5).toNat) = csum (b.take (6 + (byteAt b 5).toNat)))
    (hct : cfg.code ct = byteAt b 2) : Frame.wf cfg (parsedFrame b ct) := by
  have hsix : [byteAt b 0, byteAt b 1, byteAt b 2, byteAt b 3, byteAt b 4, byteAt b 5] = b.take 6 := by
    apply List.ext_getElem
    · simp; omega
    · intro i h1 _
      have hi : i < 6 := by simpa using h1
      rw [List.getElem_take, ← byteAt_eq_getElem b i (by omega)]
      interval_cases i <;> rfl
  have h3 := (byteAt b 3).isLt
  have h4 := (byteAt b 4).isLt
  have hhi : ((byteAt b 3).toNat * 256 + (byteAt b 4).toNat) / 256 = (byteAt b 3).toNat := by omega
  have hlo : ((byteAt b 3).toNat * 256 + (byteAt b 4).toNat) % 256 = (byteAt b 4).toNat := by omega
  refine ⟨?_, ?_, (byteAt b 5).isLt, ?_⟩
  · simp only [parsedFrame]; omega
  · simp only [parsedFrame, List.length_take, List.length_drop]; omega
  · simp only [parsedFrame, hhi, hlo, hct, BitVec.ofNat_toNat, BitVec.setWidth_eq]
    rw [hsix, ← List.take_add, hc]

end Sys2Proof.Machine
end

