-- ==== Sys2Proof/Laws/Spec.lean ====
section
/-! SUPPORT. The spec's own expressions, as Safety.lean writes them for the claims, are what the model computes. -/

namespace Sys2Proof.Machine

theorem beSum_eq (b : Bytes) : beSum b = beNat b := (beNat_eq_sum b).symm

theorem byteTotal_eq (b : Bytes) : byteTotal b = sumBytes b := (sumBytes_eq_sum b).symm

theorem csum_eq_byteTotal (b : Bytes) : csum b = BitVec.ofNat 8 (byteTotal b % 256) := by
  apply BitVec.eq_of_toNat_eq; simp [csum_toNat, byteTotal_eq]

theorem roundHalfAway_eq (x : ℚ) : roundHalfAway x = roundHaz x := (roundHaz_eq x).symm

theorem signedReading_eq (n u : Nat) : signedReading n u = sext n u := rfl

theorem signedOrUnsigned_eq (sg : Signedness) (w : Width) (b : Bytes) :
    signedOrUnsigned sg w.bytes (beSum b) = underlying sg w b := by
  rw [beSum_eq]; cases sg <;> rfl

end Sys2Proof.Machine
end

