-- ==== Sys2Proof/Tests/Slice0.lean ====
section
/-! SUPPORT. The model's own tests. Expected results come from the spec: 95_test_vectors.md (a test's comment names the
vector, under configuration TC1) and the encodings of 30_encoding.md. After them stand the witnesses: for each statement
with hypotheses, a concrete state and operands that meet them, at the boundary values of its clauses. -/

namespace Sys2Proof.Tests

open Sys2Proof Sys2Proof.Machine

/-- The block under TC1 with a request in flight. -/
def at1 (r : Request) : State := { State.resetWith tc1 with req := r, inFlight := true }

def responseOf (r : Result) : Option Response :=
  match r with
  | .next s => some s.rsp
  | .fault _ => none
  | .refused _ => none

def refusalOf (r : Result) : Option Refusal :=
  match r with
  | .next _ => none
  | .fault _ => none
  | .refused e => some e

/-- What an operation answers to a request under TC1. -/
def ask (i : Instr) (r : Request) : Option Response := responseOf (exec i (at1 r))

/-- How an operation refuses a request under TC1. -/
def refusal (i : Instr) (r : Request) : Option Refusal := refusalOf (exec i (at1 r))

/-- What a step answers to a request in flight under TC1. -/
def refusedStep (r : Request) : Option Refusal := refusalOf (step (at1 r))

def okOut (b : Bytes) : Response := { status := some .ok, out := some b }

def failed (e : Status) : Response := { status := some e }

/-- The labels of BV-D1: pump 0, burner 1, alarm 7; a label's token is its place in this list. -/
def panel : List Label := [{ name := 0, bit := 0 }, { name := 1, bit := 1 }, { name := 2, bit := 7 }]

/-! ## WellFormed: an ill-formed term for each check, refused -/

/-- TC1 with two equal command-type codes. -/
def equalCodes : ConfigParams := { tc1Params with ctError := 0x01 }

/-- TC1 with a largest scale of 0. -/
def noScale : ConfigParams := { tc1Params with scaleMax := .atMost 0 }

theorem test_equal_codes_are_illegal : equalCodes.legal = false ∧ refusalOf (boot equalCodes) = some .illegalConfiguration := by
  decide

theorem test_scale_max_0_is_illegal : noScale.legal = false ∧ refusalOf (boot noScale) = some .illegalConfiguration := by
  decide

theorem test_tc1_is_legal : tc1Params.legal = true := by decide

/-- QV-1 to QV-8: each item 1 to 5 of R65. -/
theorem test_opc_checks :
    opcWellFormed 0xE0 = false ∧ opcWellFormed 0xF3 = false ∧ opcWellFormed 0x18 = false ∧ opcWellFormed 0x44 = false ∧
    opcWellFormed 0x01 = false ∧ opcWellFormed 0x43 = false ∧ opcWellFormed 0x8B = false ∧
    opcWellFormed 0xC1 = false := by decide

theorem test_opc_refusals :
    decodeOpc 0xE0 = .error .reservedOp ∧ decodeOpc 0xF3 = .error .reservedOp ∧ decodeOpc 0x18 = .error .reservedBit ∧
    decodeOpc 0x44 = .error .signednessBit ∧ decodeOpc 0x01 = .error .unusedWidthCode ∧
    decodeOpc 0x43 = .error .reservedWidthCode ∧ decodeOpc 0x8B = .error .reservedBit ∧
    decodeOpc 0xC1 = .error .unusedWidthCode := by decide

theorem test_step_refuses_a_reserved_opc :
    refusedStep { opc := .val 0xE0 } = some (.opcode .reservedOp) ∧
    refusedStep {} = some (.missingOperand .opc) ∧
    refusedStep { opc := .wrongType } = some (.illTypedOperand .opc) := by decide

/-- FV-E11, FV-E12, and a payload of 256 bytes. -/
theorem test_frm_enc_checks :
    refusal .frmEnc (Asm.frmEnc .readRequest 0x6304 2 []) = some .frameLength ∧
    refusal .frmEnc (Asm.frmEnc .writeRequest 0x10000 1 [0x00]) = some .frameAddress ∧
    frmEncWellFormed (Asm.frmEnc .readRequest 0x6304 2 []) = false ∧
    frmEncWellFormed (Asm.frmEnc .writeRequest 0x10000 1 [0x00]) = false := by decide

theorem test_frm_enc_payload_check :
    refusal .frmEnc (Asm.frmEnc .writeRequest 0 256 (List.replicate 256 0)) = some .framePayload ∧
    frmEncWellFormed (Asm.frmEnc .writeRequest 0 256 (List.replicate 256 0)) = false := by decide +kernel

theorem test_frm_enc_command_type_check :
    refusal .frmEnc { Asm.frmEnc .error 0 0 [] with ct := .wrongType } = some (.illTypedOperand .ct) ∧
    frmEncWellFormed { Asm.frmEnc .error 0 0 [] with ct := .wrongType } = false := by decide

/-- XV-D12, and a scale above a bounded `SCALE_MAX`. -/
theorem test_scale_checks :
    refusal (.valDecFx .unsigned .w2) (Asm.valDecFx .unsigned .w2 0 [0x00, 0xD2]) = some .scaleRange ∧
    scaleWellFormed tc1 (.val 0) = false ∧ scaleWellFormed { tc1 with scaleMax := .atMost 10 } (.val 11) = false ∧
    scaleWellFormed { tc1 with scaleMax := .atMost 10 } (.val 10) = true := by decide

/-- BV-E7, BV-E8, and two equal bit indices. -/
theorem test_label_checks :
    refusal (.valEncBf .w1) (Asm.valEncBf .w1 [{ name := 0, bit := 0 }, { name := 0, bit := 1 }] [0]) =
      some .labelNames ∧
    refusal (.valEncBf .w1) (Asm.valEncBf .w1 [{ name := 0, bit := 3 }, { name := 1, bit := 3 }] [0]) =
      some .labelBits ∧
    refusal (.valEncBf .w1) (Asm.valEncBf .w1 [{ name := 0, bit := 8 }] [0]) = some .labelRange ∧
    labelsInRange .w1 [{ name := 0, bit := 0 }, { name := 0, bit := 1 }] = false ∧
    labelsInRange .w1 [{ name := 0, bit := 3 }, { name := 1, bit := 3 }] = false ∧
    labelsInRange .w1 [{ name := 0, bit := 8 }] = false ∧ labelsInRange .w2 [{ name := 0, bit := 8 }] = true := by decide

/-- RV-7, and a width of 256. -/
theorem test_rwidth_checks :
    refusal .valEncRaw (Asm.valEncRaw 0 []) = some .rawWidth ∧
    refusal .valDecRaw (Asm.valDecRaw 256 []) = some .rawWidth ∧
    rwidthWellFormed (.val 0) = false ∧ rwidthWellFormed (.val 256) = false ∧ rwidthWellFormed (.val 255) = true := by
  decide

/-- R65 item 10: missing operands and operands of the wrong type. -/
theorem test_operand_checks :
    refusal .frmCsum {} = some (.missingOperand .input) ∧
    refusal (.valEncU .w1) { ival := .wrongType } = some (.illTypedOperand .ival) ∧
    refusal (.valEncFx .signed .w4) { scale := .val 1 } = some (.missingOperand .qval) ∧
    Request.wellFormed tc1 .frmCsum {} = false ∧ Request.wellFormed tc1 (.valEncU .w1) { ival := .wrongType } = false := by
  decide

/-! ## Decoding: words written out from the fields of R60 -/

/-- OP 0 to 3, all other bits 0. -/
theorem test_decode_frame_family :
    decodeOpc 0b0000_0_0_00 = .ok .frmEnc ∧ decodeOpc 0b0001_0_0_00 = .ok .frmDec ∧
    decodeOpc 0b0010_0_0_00 = .ok .frmCsum ∧ decodeOpc 0b0011_0_0_00 = .ok .frmHunt := by decide

/-- OP 4 to 7 with WC 00, 01 and 10. -/
theorem test_decode_integer_family :
    decodeOpc 0b0100_0_0_00 = .ok (.valDecU .w1) ∧ decodeOpc 0b0101_0_0_01 = .ok (.valEncU .w2) ∧
    decodeOpc 0b0110_0_0_10 = .ok (.valDecS .w4) ∧ decodeOpc 0b0111_0_0_01 = .ok (.valEncS .w2) := by decide

/-- OP 8 and 9 with both values of S. -/
theorem test_decode_fixed_family :
    decodeOpc 0b1000_0_0_01 = .ok (.valDecFx .unsigned .w2) ∧ decodeOpc 0b1000_0_1_10 = .ok (.valDecFx .signed .w4) ∧
    decodeOpc 0b1001_0_0_00 = .ok (.valEncFx .unsigned .w1) ∧
    decodeOpc 0b1001_0_1_01 = .ok (.valEncFx .signed .w2) := by decide

/-- OP A to D. -/
theorem test_decode_bitfield_and_raw_families :
    decodeOpc 0b1010_0_0_10 = .ok (.valDecBf .w4) ∧ decodeOpc 0b1011_0_0_00 = .ok (.valEncBf .w1) ∧
    decodeOpc 0b1100_0_0_00 = .ok .valDecRaw ∧ decodeOpc 0b1101_0_0_00 = .ok .valEncRaw := by decide

/-- A table word is run by the step after it is stored, from reset. -/
theorem test_with_fetch_word :
    (responseOf (step (State.reset.withFetchWord 8 0x20))).map Response.csum = some (some 0x00) := by decide

/-! ## The operations -/

/-- FV-C3, FV-C4. -/
theorem test_frm_csum :
    ask .frmCsum (Asm.frmCsum [0xFF, 0xFF, 0xFF]) = some { status := some .ok, csum := some 0xFD } ∧
    ask .frmCsum (Asm.frmCsum [0x41, 0x01, 0x02, 0x63, 0x04, 0x02, 0x00, 0xD2]) =
      some { status := some .ok, csum := some 0x7F } := by decide +kernel

/-- FV-E2, FV-E7, FV-E9. -/
theorem test_frm_enc :
    ask .frmEnc (Asm.frmEnc .writeRequest 0x6304 2 [0x00, 0xDC]) =
      some (okOut [0x41, 0x01, 0x03, 0x63, 0x04, 0x02, 0x00, 0xDC, 0x8A]) ∧
    ask .frmEnc (Asm.frmEnc .readResponse 0xFFFF 1 [0xFF]) =
      some (okOut [0x41, 0x01, 0x02, 0xFF, 0xFF, 0x01, 0xFF, 0x42]) ∧
    ask .frmEnc (Asm.frmEnc .writeRequest 0x2323 1 [0x41]) =
      some (okOut [0x41, 0x01, 0x03, 0x23, 0x23, 0x01, 0x41, 0xCD]) := by decide +kernel

/-- FV-E10: the longest frame. -/
theorem test_frm_enc_longest :
    ask .frmEnc (Asm.frmEnc .readResponse 0 255 (List.replicate 255 0xFF)) =
      some (okOut ([0x41, 0x01, 0x02, 0x00, 0x00, 0xFF] ++ List.replicate 255 0xFF ++ [0x44])) := by decide +kernel

/-- FV-D4, FV-D12, FV-D13. -/
theorem test_frm_dec :
    ask .frmDec (Asm.frmDec [0x41, 0x01, 0x03, 0x23, 0x23, 0x01, 0x41, 0xCD]) =
      some { status := some .ok
             frame := some { startByte := 0x41, protocolByte := 0x01, commandType := .writeRequest, address := 0x2323
                             length := 1, payload := [0x41], checksum := 0xCD }
             consumed := some 8 } ∧
    (ask .frmDec (Asm.frmDec [0x41, 0x01, 0x02, 0x63, 0x04, 0x02, 0x00, 0xD2, 0x7F, 0x55, 0x66])).map Response.consumed =
      some (some 9) ∧
    (ask .frmDec (Asm.frmDec [0x55, 0x01, 0x02, 0x63, 0x04, 0x00, 0xBF])).map Response.consumed = some (some 7) := by
  decide +kernel

/-- FV-D6, FV-D7, FV-D9, FV-D10, FV-D11. -/
theorem test_frm_dec_errors :
    ask .frmDec (Asm.frmDec [0x41, 0x01, 0x02, 0x63, 0x04]) = some (failed .truncated) ∧
    ask .frmDec (Asm.frmDec [0x41, 0x01, 0x02, 0x63, 0x04, 0x00]) = some (failed .truncated) ∧
    ask .frmDec (Asm.frmDec [0x41, 0x01, 0x02, 0x63, 0x04, 0x02, 0x00, 0xD2, 0x7E]) = some (failed .badChecksum) ∧
    ask .frmDec (Asm.frmDec [0x41, 0x01, 0x77, 0x63, 0x04, 0x00, 0x20]) = some (failed .unknownCommandType) ∧
    ask .frmDec (Asm.frmDec [0x41, 0x01, 0x77, 0x63, 0x04, 0x00, 0x21]) = some (failed .badChecksum) := by
  decide +kernel

/-- FV-H3, FV-H7. -/
theorem test_frm_hunt :
    ask .frmHunt (Asm.frmHunt [0x00, 0x00, 0x00, 0x00, 0x41]) = some { status := some .ok, skip := some 4 } ∧
    ask .frmHunt (Asm.frmHunt [0x01, 0x41, 0x41]) = some { status := some .ok, skip := some 1 } := by decide +kernel

/-- FV-H4, FV-H5, FV-H6. -/
theorem test_frm_hunt_errors :
    ask .frmHunt (Asm.frmHunt [0x00, 0x00, 0x00, 0x00, 0x00, 0x41]) = some (failed .truncated) ∧
    ask .frmHunt (Asm.frmHunt []) = some (failed .truncated) ∧
    ask .frmHunt (Asm.frmHunt [0x00, 0x00]) = some (failed .truncated) := by decide +kernel

/-- IV-D7, IV-D11, IV-D14, read as unsigned. -/
theorem test_val_dec_u :
    ask (.valDecU .w2) (Asm.valDecU .w2 [0xFF, 0x38]) = some { status := some .ok, ival := some 65336 } ∧
    ask (.valDecU .w4) (Asm.valDecU .w4 [0x80, 0x00, 0x00, 0x00]) = some { status := some .ok, ival := some 2147483648 } ∧
    ask (.valDecU .w4) (Asm.valDecU .w4 [0x00, 0xD2]) = some (failed .lengthMismatch) := by decide +kernel

/-- IV-E10, IV-E5, IV-E6. -/
theorem test_val_enc_u :
    ask (.valEncU .w2) (Asm.valEncU .w2 4660) = some (okOut [0x12, 0x34]) ∧
    ask (.valEncU .w1) (Asm.valEncU .w1 256) = some (failed .unrepresentable) ∧
    ask (.valEncU .w1) (Asm.valEncU .w1 (-1)) = some (failed .unrepresentable) := by decide +kernel

/-- IV-D7, IV-D11, IV-D13, read as signed. -/
theorem test_val_dec_s :
    ask (.valDecS .w2) (Asm.valDecS .w2 [0xFF, 0x38]) = some { status := some .ok, ival := some (-200) } ∧
    ask (.valDecS .w4) (Asm.valDecS .w4 [0x80, 0x00, 0x00, 0x00]) =
      some { status := some .ok, ival := some (-2147483648) } ∧
    ask (.valDecS .w1) (Asm.valDecS .w1 []) = some (failed .lengthMismatch) := by decide +kernel

/-- IV-E9, IV-E3, IV-E8. -/
theorem test_val_enc_s :
    ask (.valEncS .w2) (Asm.valEncS .w2 (-200)) = some (okOut [0xFF, 0x38]) ∧
    ask (.valEncS .w1) (Asm.valEncS .w1 128) = some (failed .unrepresentable) ∧
    ask (.valEncS .w1) (Asm.valEncS .w1 (-129)) = some (failed .unrepresentable) := by decide +kernel

/-- XV-D2, XV-D3. -/
theorem test_val_dec_fx :
    ask (.valDecFx .unsigned .w2) (Asm.valDecFx .unsigned .w2 10 [0x00, 0xD7]) =
      some { status := some .ok, ival := some 215, qval := some (43 / 2) } ∧
    ask (.valDecFx .signed .w2) (Asm.valDecFx .signed .w2 10 [0xFF, 0x38]) =
      some { status := some .ok, ival := some (-200), qval := some (-20) } := by decide +kernel

/-- XV-D6, XV-D9. -/
theorem test_val_dec_fx_exact_and_length :
    ask (.valDecFx .unsigned .w2) (Asm.valDecFx .unsigned .w2 3 [0x00, 0x01]) =
      some { status := some .ok, ival := some 1, qval := some (1 / 3) } ∧
    ask (.valDecFx .unsigned .w1) (Asm.valDecFx .unsigned .w1 10 [0x00, 0xD2]) = some (failed .lengthMismatch) := by
  decide +kernel

/-- XV-E3, XV-E4, XV-E16. -/
theorem test_val_enc_fx :
    ask (.valEncFx .unsigned .w2) (Asm.valEncFx .unsigned .w2 10 (2155 / 100)) = some (okOut [0x00, 0xD8]) ∧
    ask (.valEncFx .signed .w2) (Asm.valEncFx .signed .w2 10 (-2155 / 100)) = some (okOut [0xFF, 0x28]) ∧
    ask (.valEncFx .signed .w2) (Asm.valEncFx .signed .w2 100 (21555 / 1000)) = some (okOut [0x08, 0x6C]) := by
  decide +kernel

/-- XV-E7, XV-E8, XV-E11, XV-E22. -/
theorem test_val_enc_fx_range :
    ask (.valEncFx .unsigned .w2) (Asm.valEncFx .unsigned .w2 10 (-4 / 100)) = some (okOut [0x00, 0x00]) ∧
    ask (.valEncFx .unsigned .w2) (Asm.valEncFx .unsigned .w2 10 (-5 / 100)) = some (failed .unrepresentable) ∧
    ask (.valEncFx .signed .w2) (Asm.valEncFx .signed .w2 10 (327675 / 100)) = some (failed .unrepresentable) ∧
    ask (.valEncFx .unsigned .w1) (Asm.valEncFx .unsigned .w1 10 (2555 / 100)) = some (failed .unrepresentable) := by
  decide +kernel

/-- BV-D4, BV-D6. -/
theorem test_val_dec_bf :
    ask (.valDecBf .w1) (Asm.valDecBf .w1 panel [0xFF]) =
      some { status := some .ok, ival := some 255, names := some [0, 1, 2], unlabelled := some 0x7C } ∧
    ask (.valDecBf .w2) (Asm.valDecBf .w2 [{ name := 5, bit := 15 }, { name := 3, bit := 0 }] [0x80, 0x01]) =
      some { status := some .ok, ival := some 32769, names := some [3, 5], unlabelled := some 0 } := by decide +kernel

/-- BV-D2, BV-D5. -/
theorem test_val_dec_bf_unlabelled_and_length :
    ask (.valDecBf .w1) (Asm.valDecBf .w1 panel [0x05]) =
      some { status := some .ok, ival := some 5, names := some [0], unlabelled := some 0x04 } ∧
    ask (.valDecBf .w1) (Asm.valDecBf .w1 panel [0x00, 0x83]) = some (failed .lengthMismatch) := by decide +kernel

/-- BV-E1, BV-E6; a name given twice has no further effect (R115). -/
theorem test_val_enc_bf :
    ask (.valEncBf .w1) (Asm.valEncBf .w1 panel [1, 2, 1]) = some (okOut [0x82]) ∧
    ask (.valEncBf .w2) (Asm.valEncBf .w2 [{ name := 5, bit := 15 }, { name := 3, bit := 0 }] [5]) =
      some (okOut [0x80, 0x00]) := by decide +kernel

/-- BV-E2, BV-E5. -/
theorem test_val_enc_bf_empty_and_unknown :
    ask (.valEncBf .w1) (Asm.valEncBf .w1 panel []) = some (okOut [0x00]) ∧
    ask (.valEncBf .w1) (Asm.valEncBf .w1 panel [0, 9]) = some (failed .unrepresentable) := by decide +kernel

/-- RV-1, RV-2. -/
theorem test_val_dec_raw :
    ask .valDecRaw (Asm.valDecRaw 3 [0x14, 0x0B, 0x1E]) = some (okOut [0x14, 0x0B, 0x1E]) ∧
    ask .valDecRaw (Asm.valDecRaw 3 [0x14, 0x0B]) = some (failed .lengthMismatch) := by decide +kernel

/-- RV-4, RV-5. -/
theorem test_val_enc_raw :
    ask .valEncRaw (Asm.valEncRaw 2 [0x12, 0x34]) = some (okOut [0x12, 0x34]) ∧
    ask .valEncRaw (Asm.valEncRaw 2 [0x12]) = some (failed .lengthMismatch) := by decide +kernel

/-! ## The host's side -/

/-- P2, steps 2 and 3 as FRM.RECV: noise, then the frame. -/
theorem test_frm_recv :
    (responseOf (frmRecv [0x00, 0xFF, 0x41, 0x01, 0x02, 0x63, 0x04, 0x02, 0x00, 0xD2, 0x7F] (State.resetWith tc1))).map
      (fun r => (r.status, r.consumed, r.frame.map Frame.address)) = some (some .ok, some 9, some 0x6304) := by
  decide +kernel

/-- P1, steps 1 and 2 as FRM.PUT. -/
theorem test_frm_put :
    responseOf (frmPut (.fixedPoint .w2 10) .unsigned (.rat 22) .writeRequest 0x6304 (State.resetWith tc1)) =
      some (okOut [0x41, 0x01, 0x03, 0x63, 0x04, 0x02, 0x00, 0xDC, 0x8A]) := by decide +kernel

/-- P3a: a host that value-decodes the Error frame's payload is flagged; one that decodes other bytes is not. -/
theorem test_error_frame_duty :
    breaksErrorFrameDuty (transcript
      [Asm.frmDec [0x41, 0x01, 0x0F, 0x63, 0x04, 0x00, 0xB8], Asm.valDecU .w1 []] (State.resetWith tc1)) = true ∧
    breaksErrorFrameDuty (transcript
      [Asm.frmDec [0x41, 0x01, 0x0F, 0x63, 0x04, 0x00, 0xB8], Asm.valDecU .w1 [0x05]] (State.resetWith tc1)) = false := by
  decide +kernel

/-- R160: another frame decoded in between does not hide the Error frame; a payload of that other frame is not flagged. -/
theorem test_error_frame_duty_across_frames :
    breaksErrorFrameDuty (transcript
      [Asm.frmDec [0x41, 0x01, 0x0F, 0x63, 0x04, 0x01, 0x05, 0xBE],
       Asm.frmDec [0x41, 0x01, 0x02, 0x63, 0x04, 0x02, 0x00, 0xD2, 0x7F], Asm.valDecU .w1 [0x05]]
      (State.resetWith tc1)) = true ∧
    breaksErrorFrameDuty (transcript
      [Asm.frmDec [0x41, 0x01, 0x0F, 0x63, 0x04, 0x01, 0x05, 0xBE],
       Asm.frmDec [0x41, 0x01, 0x02, 0x63, 0x04, 0x02, 0x00, 0xD2, 0x7F], Asm.valDecU .w2 [0x00, 0xD2]]
      (State.resetWith tc1)) = false := by decide +kernel

/-- R45: after a first response a second request is issued; until it has ended no read gives the first one's checksum. -/
theorem test_read_while_in_flight :
    ({ at1 (Asm.frmHunt []) with rsp := { status := some .ok, csum := some 0x7F } } : State).readCsum =
      .error (.responsePending .csum) ∧
    (State.resetWith tc1).readCsum = .error (.noValue .csum) := ⟨rfl, rfl⟩

/-! ## Witnesses

For each statement of Obligations.lean with hypotheses, a concrete state and operands that meet them all together, under
TC1. Where a statement has several clauses, each clause has one, at a boundary value where it has a range. -/

/-- The base frame of FV-M1 to FV-M5. -/
def baseFrame : Bytes := [0x41, 0x01, 0x02, 0x63, 0x04, 0x02, 0x00, 0xAC, 0x59]

/-- The request of which `baseFrame` is the output. -/
def baseRequest : Request := Asm.frmEnc .readResponse 0x6304 2 [0x00, 0xAC]

/-- SRC-6: the Error frame. -/
def errorFrame : Bytes := [0x41, 0x01, 0x0F, 0x63, 0x04, 0x00, 0xB8]

/-- A block whose `SCALE_MAX` is 10, with a request in flight. -/
def atMost10 (r : Request) : State :=
  { State.resetWith { tc1 with scaleMax := .atMost 10 } with req := r, inFlight := true }

theorem witness_DecodeAndEncodeAgree :
    decodeOpc 0x85 = .ok (.valDecFx .signed .w2) ∧ (at1 (Asm.valEncU .w4 0)).inFlight = true ∧
    (at1 (Asm.valEncU .w4 0)).req.opc = .val (encode (.valEncU .w4)) := by decide

theorem witness_ARequestIsRefused_illFormed :
    (at1 (Asm.valDecRaw 256 [])).inFlight = true ∧ illFormed tc1 (Asm.valDecRaw 256 []) ∧
    illFormed tc1 { opc := .val 0xE0 } ∧ illFormed tc1 {} :=
  ⟨rfl,
    .inr ⟨0xC0, rfl, .inr (.inr (.inr (.inr (.inl ⟨.inl rfl, 256, rfl, .inr (by decide)⟩))))⟩,
    .inr ⟨0xE0, rfl, .inl (.inl (.inl rfl))⟩,
    .inl (by simp [Slot.absent])⟩

theorem witness_ARequestIsRefused_wellFormed :
    (at1 (Asm.valDecRaw 255 [])).inFlight = true ∧ ¬ illFormed tc1 (Asm.valDecRaw 255 []) := by
  refine ⟨rfl, ?_⟩
  rintro (h | ⟨o, ho, h | h⟩)
  · exact h _ rfl
  · obtain ⟨e, he⟩ := (decodeOpc_error_iff o).mpr h
    cases ho
    rw [decodeOpc_encode] at he
    cases he
  · cases ho
    exact (wellFormed_iff tc1 .valDecRaw (Asm.valDecRaw 255 [])).mp (by decide) h

theorem witness_StepRunsTheDecodedOperation :
    (at1 (Asm.frmDec [])).inFlight = true ∧ (at1 (Asm.frmDec [])).req.opc = .val 0x10 ∧
    decodeOpc 0x10 = .ok .frmDec := by decide

theorem witness_StepWithNothingInFlightIsIdle : State.reset.inFlight = false := rfl

theorem witness_StoredTableWordIsRunNext : decodeTableWord 8 0x85 = some (.valDecFx .signed .w2) := by decide

theorem witness_FrmCsumResult : (at1 (Asm.frmCsum [])).req.input = .val [] := rfl

/-- The shortest frame. -/
theorem witness_FrmEncResult_shortest :
    (at1 (Asm.frmEnc .error 0 0 [])).req.ct = .val .error ∧ (at1 (Asm.frmEnc .error 0 0 [])).req.addr = .val 0 ∧
    (at1 (Asm.frmEnc .error 0 0 [])).req.len = .val 0 ∧ (at1 (Asm.frmEnc .error 0 0 [])).req.payload = .val [] ∧
    0 = ([] : Bytes).length ∧ ([] : Bytes).length ≤ 255 ∧ 0 < 2 ^ 16 := by decide

/-- The longest frame, at the top address. -/
theorem witness_FrmEncResult_longest :
    ∃ payload : Bytes, (at1 (Asm.frmEnc .error 0xFFFF 255 payload)).req.payload = .val payload ∧
      255 = payload.length ∧ payload.length ≤ 255 ∧ 0xFFFF < 2 ^ 16 :=
  ⟨List.replicate 255 0xFF, rfl, by rw [List.length_replicate], by rw [List.length_replicate], by decide⟩

/-- Refused: an address one too large, and a missing operand. -/
theorem witness_FrmEncResult_refused :
    (∀ (ct : CommandType) (addr len : Nat) (payload : Bytes),
      (Asm.frmEnc .error 0x10000 0 []).ct = .val ct → (Asm.frmEnc .error 0x10000 0 []).addr = .val addr →
      (Asm.frmEnc .error 0x10000 0 []).len = .val len → (Asm.frmEnc .error 0x10000 0 []).payload = .val payload →
      ¬ (len = payload.length ∧ payload.length ≤ 255 ∧ addr < 2 ^ 16)) ∧
    (∀ (ct : CommandType) (addr len : Nat) (payload : Bytes),
      ({} : Request).ct = .val ct → ({} : Request).addr = .val addr → ({} : Request).len = .val len →
      ({} : Request).payload = .val payload → ¬ (len = payload.length ∧ payload.length ≤ 255 ∧ addr < 2 ^ 16)) := by
  constructor
  · rintro ct addr len payload - ha - - ⟨-, -, h⟩
    cases ha
    exact absurd h (by decide)
  · rintro ct addr len payload h
    cases h

theorem witness_EncodedFrameProperties :
    ∃ t, exec .frmEnc (at1 baseRequest) = .next t ∧ (at1 baseRequest).req.len = .val 2 ∧ t.rsp.out = some baseFrame :=
  ⟨_, rfl, rfl, rfl⟩

/-- Five bytes. -/
theorem witness_FrmDecResult_header :
    (at1 (Asm.frmDec [0x41, 0x01, 0x02, 0x63, 0x04])).req.input = .val [0x41, 0x01, 0x02, 0x63, 0x04] ∧
    ([0x41, 0x01, 0x02, 0x63, 0x04] : Bytes).length < 6 := by decide

/-- Six bytes with length 0, one too few. -/
theorem witness_FrmDecResult_frame :
    ∃ b : Bytes, (at1 (Asm.frmDec b)).req.input = .val b ∧ 6 ≤ b.length ∧ b.length < 7 + (b.getD 5 0).toNat :=
  ⟨[0x41, 0x01, 0x02, 0x63, 0x04, 0x00], by decide⟩

/-- Exactly `7 + L` bytes with a wrong checksum. -/
theorem witness_FrmDecResult_checksum :
    ∃ b : Bytes, (at1 (Asm.frmDec b)).req.input = .val b ∧ 6 ≤ b.length ∧ 7 + (b.getD 5 0).toNat ≤ b.length ∧
      b.getD (6 + (b.getD 5 0).toNat) 0 ≠ csum (b.take (6 + (b.getD 5 0).toNat)) :=
  ⟨[0x41, 0x01, 0x77, 0x63, 0x04, 0x00, 0x21], by decide⟩

/-- A good checksum and no command type. -/
theorem witness_FrmDecResult_commandType :
    ∃ b : Bytes, (at1 (Asm.frmDec b)).req.input = .val b ∧ 6 ≤ b.length ∧ 7 + (b.getD 5 0).toNat ≤ b.length ∧
      b.getD (6 + (b.getD 5 0).toNat) 0 = csum (b.take (6 + (b.getD 5 0).toNat)) ∧
      ∀ ct, b.getD 2 0 ≠ tc1.code ct :=
  ⟨[0x41, 0x01, 0x77, 0x63, 0x04, 0x00, 0x20], by decide, by decide, by decide, by decide,
    by intro ct; cases ct <;> decide⟩

theorem witness_FrmDecResult_ok :
    ∃ b : Bytes, (at1 (Asm.frmDec b)).req.input = .val b ∧ 6 ≤ b.length ∧ 7 + (b.getD 5 0).toNat ≤ b.length ∧
      b.getD (6 + (b.getD 5 0).toNat) 0 = csum (b.take (6 + (b.getD 5 0).toNat)) ∧ b.getD 2 0 = tc1.code .error :=
  ⟨errorFrame, by decide⟩

theorem witness_DecodedFrameInvariants :
    ∃ t, (at1 (Asm.frmDec baseFrame)).req.input = .val baseFrame ∧ exec .frmDec (at1 (Asm.frmDec baseFrame)) = .next t ∧
      t.rsp.status = some .ok :=
  ⟨_, rfl, rfl, by decide⟩

/-- FV-D13: a start byte that is not `START_BYTE`. -/
theorem witness_StartAndProtocolBytesAreNotChecked_accepted :
    ([] : Bytes).length = (0x00 : Byte).toNat ∧
    (at1 (Asm.frmDec [0x55, 0x01, 0x02, 0x63, 0x04, 0x00, 0xBF])).req.input =
      .val ([0x55, 0x01, tc1.code .readResponse, 0x63, 0x04, 0x00] ++ [] ++
        [csum ([0x55, 0x01, tc1.code .readResponse, 0x63, 0x04, 0x00] ++ [])]) := by decide

/-- FV-M2: the start byte changed. -/
theorem witness_StartAndProtocolBytesAreNotChecked_changed :
    ∃ t, (at1 (Asm.frmDec baseFrame)).req.input = .val baseFrame ∧ exec .frmDec (at1 (Asm.frmDec baseFrame)) = .next t ∧
      t.rsp.status = some .ok ∧ 1 < 2 ∧ baseFrame.getD 1 0 ≠ 0x40 ∧
      (at1 (Asm.frmDec (baseFrame.set 1 0x40))).req.input = .val (baseFrame.set 1 0x40) :=
  ⟨_, rfl, rfl, by decide, by decide, by decide, rfl⟩

theorem witness_SurplusBytesAreIgnored :
    (at1 (Asm.frmDec (baseFrame ++ [0x55]))).cfg = (at1 (Asm.frmDec baseFrame)).cfg ∧
    (at1 (Asm.frmDec baseFrame)).req.input = .val baseFrame ∧
    (at1 (Asm.frmDec (baseFrame ++ [0x55]))).req.input = .val (baseFrame ++ [0x55]) ∧
    6 ≤ baseFrame.length ∧ baseFrame.length = 7 + (baseFrame.getD 5 0).toNat :=
  ⟨rfl, rfl, rfl, by decide, by decide⟩

theorem witness_ErrorFrameDecodesOk :
    ([] : Bytes).length = (0x00 : Byte).toNat ∧
    (at1 (Asm.frmDec errorFrame)).req.input = .val ([0x41, 0x01, tc1.ctError, 0x63, 0x04, 0x00] ++ [] ++
      [csum ([0x41, 0x01, tc1.ctError, 0x63, 0x04, 0x00] ++ [])]) := by decide

theorem witness_FrameRoundTrip :
    (at1 baseRequest).req.ct = .val .readResponse ∧ (at1 baseRequest).req.addr = .val 0x6304 ∧
    (at1 baseRequest).req.len = .val 2 ∧ (at1 baseRequest).req.payload = .val [0x00, 0xAC] ∧
    Request.wellFormed tc1 .frmEnc (at1 baseRequest).req = true ∧
    (at1 (Asm.frmDec (baseFrame ++ [0x41]))).cfg = (at1 baseRequest).cfg ∧
    (at1 (Asm.frmDec (baseFrame ++ [0x41]))).req.input = .val (baseFrame ++ [0x41]) := by decide

/-- FV-M3: the checksum byte changed. -/
theorem witness_SingleByteCorruption_notLength :
    ∃ d, exec .frmEnc (at1 baseRequest) = .next d ∧ d.rsp.out = some baseFrame ∧
      (at1 baseRequest).req.payload = .val [0x00, 0xAC] ∧ 8 < baseFrame.length ∧ baseFrame.getD 8 0 ≠ 0x58 ∧
      (at1 (Asm.frmDec (baseFrame.set 8 0x58))).req.input = .val (baseFrame.set 8 0x58) ∧ 8 ≠ 5 :=
  ⟨_, rfl, rfl, rfl, by decide, by decide, rfl, by decide⟩

/-- FV-M4: the length one larger. -/
theorem witness_SingleByteCorruption_longer :
    ∃ d, exec .frmEnc (at1 baseRequest) = .next d ∧ d.rsp.out = some baseFrame ∧
      5 < baseFrame.length ∧ baseFrame.getD 5 0 ≠ 0x03 ∧ ([0x00, 0xAC] : Bytes).length < (0x03 : Byte).toNat :=
  ⟨_, rfl, rfl, by decide, by decide, by decide⟩

/-- The length set to 0, which gives BadChecksum. -/
theorem witness_SingleByteCorruption_shorter :
    ∃ d, exec .frmEnc (at1 baseRequest) = .next d ∧ d.rsp.out = some baseFrame ∧
      baseFrame.getD 5 0 ≠ 0x00 ∧ (0x00 : Byte).toNat < ([0x00, 0xAC] : Bytes).length ∧
      ([0x00, 0xAC] : Bytes).getD (0x00 : Byte).toNat 0 ≠ csum ((baseFrame.set 5 0x00).take (6 + (0x00 : Byte).toNat)) :=
  ⟨_, rfl, rfl, by decide, by decide, by decide⟩

/-- FV-M5: the length set to 1, which decodes. -/
theorem witness_SingleByteCorruption_decodes :
    ∃ d, exec .frmEnc (at1 baseRequest) = .next d ∧ d.rsp.out = some baseFrame ∧
      baseFrame.getD 5 0 ≠ 0x01 ∧ (0x01 : Byte).toNat < ([0x00, 0xAC] : Bytes).length ∧
      ([0x00, 0xAC] : Bytes).getD (0x01 : Byte).toNat 0 = csum ((baseFrame.set 5 0x01).take (6 + (0x01 : Byte).toNat)) :=
  ⟨_, rfl, rfl, by decide, by decide, by decide⟩

theorem witness_WhatTheChecksumMisses_reordered : ([0xD2, 0x00] : Bytes).Perm [0x00, 0xD2] := by decide

/-- One byte up by 1, another down by 1. -/
theorem witness_WhatTheChecksumMisses_changed :
    0 < ([0x10, 0x20] : Bytes).length ∧ 1 < ([0x10, 0x20] : Bytes).length ∧ 0 ≠ 1 ∧
    (256 : Int) ∣ (((0x11 : Byte).toNat : Int) - (([0x10, 0x20] : Bytes).getD 0 0).toNat) +
      (((0x1F : Byte).toNat : Int) - (([0x10, 0x20] : Bytes).getD 1 0).toNat) := by decide

/-- FV-H3: the largest skip. -/
theorem witness_FrmHuntResult_found :
    4 ≤ tc1.scanWindow ∧ ([0x00, 0x00, 0x00, 0x00, 0x41] : Bytes)[4]? = some tc1.startByte ∧
    ∀ j < 4, ([0x00, 0x00, 0x00, 0x00, 0x41] : Bytes)[j]? ≠ some tc1.startByte := by decide

/-- FV-H4: the start byte one too far. -/
theorem witness_FrmHuntResult_truncated :
    ∀ k, k ≤ tc1.scanWindow → ([0x00, 0x00, 0x00, 0x00, 0x00, 0x41] : Bytes)[k]? ≠ some tc1.startByte := by decide

theorem witness_ValDecUResult :
    (at1 (Asm.valDecU .w1 [])).req.input = .val [] ∧ ([] : Bytes).length ≠ Width.w1.bytes ∧
    (at1 (Asm.valDecU .w1 [0xFF])).req.input = .val [0xFF] ∧ ([0xFF] : Bytes).length = Width.w1.bytes := by decide

theorem witness_ValEncUResult :
    (at1 (Asm.valEncU .w1 (-1))).req.ival = .val (-1) ∧ (-1 : Int) < 0 ∧
    (at1 (Asm.valEncU .w1 256)).req.ival = .val 256 ∧ (256 : Int) ≥ 2 ^ (8 * Width.w1.bytes) ∧
    (at1 (Asm.valEncU .w1 255)).req.ival = .val 255 ∧ (0 : Int) ≤ 255 ∧ (255 : Int) < 2 ^ (8 * Width.w1.bytes) := by
  decide

theorem witness_ValDecSResult :
    (at1 (Asm.valDecS .w2 [0x00])).req.input = .val [0x00] ∧ ([0x00] : Bytes).length ≠ Width.w2.bytes ∧
    (at1 (Asm.valDecS .w2 [0x80, 0x00])).req.input = .val [0x80, 0x00] ∧
    ([0x80, 0x00] : Bytes).length = Width.w2.bytes := by decide

theorem witness_ValEncSResult :
    (at1 (Asm.valEncS .w1 128)).req.ival = .val 128 ∧ (128 : Int) ≥ 2 ^ (8 * Width.w1.bytes - 1) ∧
    (at1 (Asm.valEncS .w1 (-129))).req.ival = .val (-129) ∧ (-129 : Int) < -2 ^ (8 * Width.w1.bytes - 1) ∧
    (at1 (Asm.valEncS .w1 (-128))).req.ival = .val (-128) ∧ -2 ^ (8 * Width.w1.bytes - 1) ≤ (-128 : Int) ∧
    (-128 : Int) < 2 ^ (8 * Width.w1.bytes - 1) := by decide

theorem witness_IntegerRoundTrips :
    (at1 (Asm.valEncS .w1 127)).req.ival = .val 127 ∧ inWidthRange .signed Width.w1.bytes 127 ∧
    (at1 (Asm.valDecS .w1 [0x7F])).req.input = .val [0x7F] ∧ ([0x7F] : Bytes).length = Width.w1.bytes :=
  ⟨rfl, by simp [inWidthRange, Width.bytes], rfl, rfl⟩

theorem witness_NoWrapAround_decode :
    (∃ t, exec (.valDecU .w1) (at1 (Asm.valDecU .w1 [0xFF])) = .next t ∧ t.rsp.ival = some 255) ∧
    (∃ t, exec (.valDecS .w1) (at1 (Asm.valDecS .w1 [0x80])) = .next t ∧ t.rsp.ival = some (-128)) :=
  ⟨⟨_, rfl, by decide⟩, ⟨_, rfl, by decide⟩⟩

theorem witness_NoWrapAround_encode :
    ((at1 (Asm.valEncU .w1 256)).req.ival = .val 256 ∧ ∃ t, exec (.valEncU .w1) (at1 (Asm.valEncU .w1 256)) = .next t) ∧
    ((at1 (Asm.valEncS .w1 127)).req.ival = .val 127 ∧ ∃ t, exec (.valEncS .w1) (at1 (Asm.valEncS .w1 127)) = .next t) :=
  ⟨⟨rfl, _, rfl⟩, ⟨rfl, _, rfl⟩⟩

theorem witness_SignedAndUnsignedReadings :
    (at1 (Asm.valDecU .w1 [0x80])).req.input = .val [0x80] ∧ ([0x80] : Bytes).length = Width.w1.bytes := by decide

/-- A scale of exactly `SCALE_MAX`. -/
theorem witness_ValDecFxResult :
    (atMost10 (Asm.valDecFx .signed .w2 10 [0xFF, 0x38])).req.input = .val [0xFF, 0x38] ∧
    (atMost10 (Asm.valDecFx .signed .w2 10 [0xFF, 0x38])).req.scale = .val 10 ∧ 1 ≤ 10 ∧
    (∀ top, (atMost10 (Asm.valDecFx .signed .w2 10 [0xFF, 0x38])).cfg.scaleMax = .atMost top → 10 ≤ top) ∧
    ([0xFF, 0x38] : Bytes).length = Width.w2.bytes ∧ ([0xFF, 0x38] : Bytes).length ≠ Width.w1.bytes := by
  refine ⟨rfl, rfl, by decide, ?_, by decide, by decide⟩
  intro top h
  cases h
  decide

/-- XV-E11: 3276.75 at scale 10 rounds to 32768, one too large for the signed range and inside the unsigned one. -/
theorem witness_ValEncFxResult :
    (at1 (Asm.valEncFx .signed .w2 10 (327675 / 100))).req.qval = .val (327675 / 100) ∧
    (at1 (Asm.valEncFx .signed .w2 10 (327675 / 100))).req.scale = .val 10 ∧ 1 ≤ 10 ∧
    (∀ top, (at1 (Asm.valEncFx .signed .w2 10 (327675 / 100))).cfg.scaleMax = .atMost top → 10 ≤ top) ∧
    ¬ inWidthRange .signed Width.w2.bytes (roundHalfAway (327675 / 100 * (10 : Nat))) ∧
    inWidthRange .unsigned Width.w2.bytes (roundHalfAway (327675 / 100 * (10 : Nat))) := by
  have h : roundHalfAway (327675 / 100 * (10 : Nat)) = 32768 := by
    rw [roundHalfAway_eq]
    decide +kernel
  refine ⟨rfl, rfl, by decide, ?_, ?_, ?_⟩
  · intro top h
    cases h
  · rw [h]
    simp [inWidthRange, Width.bytes]
  · rw [h]
    simp [inWidthRange, Width.bytes]

/-- -0.04 and 0.04 at scale 10 both round to 0. -/
theorem witness_RangeCheckIsOnTheRoundedValue :
    ∃ t, (at1 (Asm.valEncFx .unsigned .w2 10 (4 / 100))).cfg = (at1 (Asm.valEncFx .unsigned .w2 10 (-4 / 100))).cfg ∧
      (at1 (Asm.valEncFx .unsigned .w2 10 (-4 / 100))).req.qval = .val (-4 / 100) ∧
      (at1 (Asm.valEncFx .unsigned .w2 10 (4 / 100))).req.qval = .val (4 / 100) ∧
      (at1 (Asm.valEncFx .unsigned .w2 10 (-4 / 100))).req.scale = .val 10 ∧
      (at1 (Asm.valEncFx .unsigned .w2 10 (4 / 100))).req.scale = .val 10 ∧
      roundHalfAway (-4 / 100 * (10 : Nat)) = roundHalfAway (4 / 100 * (10 : Nat)) ∧
      exec (.valEncFx .unsigned .w2) (at1 (Asm.valEncFx .unsigned .w2 10 (-4 / 100))) = .next t := by
  refine ⟨_, rfl, rfl, rfl, rfl, rfl, ?_, rfl⟩
  rw [roundHalfAway_eq, roundHalfAway_eq]
  decide +kernel

/-- XV-R1: 21.5 at scale 10 is 215. -/
theorem witness_FixedPointEncodeThenDecode :
    ∃ t, (at1 (Asm.valEncFx .unsigned .w2 10 (215 / 10))).req.qval = .val (215 / 10) ∧
      (at1 (Asm.valEncFx .unsigned .w2 10 (215 / 10))).req.scale = .val 10 ∧
      exec (.valEncFx .unsigned .w2) (at1 (Asm.valEncFx .unsigned .w2 10 (215 / 10))) = .next t ∧
      t.rsp.out = some [0x00, 0xD7] ∧
      (at1 (Asm.valDecFx .unsigned .w2 10 [0x00, 0xD7])).cfg = (at1 (Asm.valEncFx .unsigned .w2 10 (215 / 10))).cfg ∧
      (at1 (Asm.valDecFx .unsigned .w2 10 [0x00, 0xD7])).req.input = .val [0x00, 0xD7] ∧
      (at1 (Asm.valDecFx .unsigned .w2 10 [0x00, 0xD7])).req.scale = .val 10 :=
  ⟨_, rfl, rfl, rfl, by decide +kernel, rfl, rfl, rfl⟩

theorem witness_FixedPointDecodeThenEncode :
    (at1 (Asm.valDecFx .signed .w2 10 [0xFF, 0x38])).req.input = .val [0xFF, 0x38] ∧
    (at1 (Asm.valDecFx .signed .w2 10 [0xFF, 0x38])).req.scale = .val 10 ∧
    ([0xFF, 0x38] : Bytes).length = Width.w2.bytes ∧ 1 ≤ 10 ∧
    (∀ top, (at1 (Asm.valDecFx .signed .w2 10 [0xFF, 0x38])).cfg.scaleMax = .atMost top → 10 ≤ top) :=
  ⟨rfl, rfl, by decide, by decide, by intro top h; cases h⟩

/-- The operands of a FixedPoint operation and of the integer operation, in one request. -/
def scaleOne : Request := { input := .val [0x80], scale := .val 1, qval := .val 128, ival := .val 128 }

theorem witness_ScaleOneAgreesWithTheIntegers :
    (at1 scaleOne).req.scale = .val 1 ∧ (∃ t, exec (.valDecFx .signed .w1) (at1 scaleOne) = .next t) ∧
    (at1 scaleOne).req.qval = .val ((128 : Int) : ℚ) ∧ (at1 scaleOne).req.ival = .val 128 ∧
    (∃ t, exec (.valEncFx .signed .w1) (at1 scaleOne) = .next t) :=
  ⟨rfl, ⟨_, rfl⟩, rfl, rfl, ⟨_, rfl⟩⟩

theorem witness_ValDecBfResult :
    (at1 (Asm.valDecBf .w1 panel [0x83])).req.input = .val [0x83] ∧
    (at1 (Asm.valDecBf .w1 panel [0x83])).req.labels = .val panel ∧ (panel.map Label.name).Nodup ∧
    (panel.map Label.bit).Nodup ∧ (∀ l ∈ panel, l.bit < 8 * Width.w1.bytes) ∧
    ([0x83] : Bytes).length = Width.w1.bytes ∧ ([0x83] : Bytes).length ≠ Width.w2.bytes := by decide

theorem witness_ValEncBfResult :
    (at1 (Asm.valEncBf .w1 panel [9])).req.names = .val [9] ∧
    (at1 (Asm.valEncBf .w1 panel [9])).req.labels = .val panel ∧ (panel.map Label.name).Nodup ∧
    (panel.map Label.bit).Nodup ∧ (∀ l ∈ panel, l.bit < 8 * Width.w1.bytes) ∧
    (∃ n ∈ [9], ∀ l ∈ panel, l.name ≠ n) ∧ (∀ n ∈ [0, 2], ∃ l ∈ panel, l.name = n) ∧
    (∀ n ∈ ([] : List LabelName), ∃ l ∈ panel, l.name = n) := by decide

theorem witness_BitNumberingOfABitField :
    ∃ t, (at1 (Asm.valDecBf .w1 panel [0x80])).req.input = .val [0x80] ∧
      (at1 (Asm.valDecBf .w1 panel [0x80])).req.labels = .val panel ∧
      exec (.valDecBf .w1) (at1 (Asm.valDecBf .w1 panel [0x80])) = .next t ∧ t.rsp.names = some [2] :=
  ⟨_, rfl, rfl, rfl, by decide⟩

theorem witness_BitFieldRoundTrips :
    (at1 (Asm.valEncBf .w1 panel [2, 0])).req.names = .val [2, 0] ∧
    (at1 (Asm.valEncBf .w1 panel [2, 0])).req.labels = .val panel ∧ labelsInRange .w1 panel = true ∧
    (∀ n ∈ [2, 0], ∃ l ∈ panel, l.name = n) ∧
    (at1 (Asm.valDecBf .w1 panel [0x05])).req.input = .val [0x05] ∧
    (at1 (Asm.valDecBf .w1 panel [0x05])).req.labels = .val panel ∧ ([0x05] : Bytes).length = Width.w1.bytes := by
  decide

theorem witness_ValDecRawResult :
    (at1 (Asm.valDecRaw 1 [0x41])).req.input = .val [0x41] ∧ (at1 (Asm.valDecRaw 1 [0x41])).req.rwidth = .val 1 ∧
    1 ≤ 1 ∧ 1 ≤ 255 ∧ ([0x41] : Bytes).length = 1 ∧
    (at1 (Asm.valDecRaw 255 [0x41])).req.rwidth = .val 255 ∧ 255 ≤ 255 ∧ ([0x41] : Bytes).length ≠ 255 := by decide

theorem witness_ValEncRawResult :
    (at1 (Asm.valEncRaw 1 [0x41])).req.rawval = .val [0x41] ∧ (at1 (Asm.valEncRaw 1 [0x41])).req.rwidth = .val 1 ∧
    1 ≤ 1 ∧ 1 ≤ 255 ∧ ([0x41] : Bytes).length = 1 ∧
    (at1 (Asm.valEncRaw 2 [0x41])).req.rwidth = .val 2 ∧ ([0x41] : Bytes).length ≠ 2 ∧
    (at1 (Asm.valEncRaw 0 [])).req.rwidth = .val 0 := by decide

theorem witness_RawRoundTrip :
    (at1 (Asm.valEncRaw 1 [0x41])).req.rwidth = .val ([0x41] : Bytes).length ∧ 1 ≤ ([0x41] : Bytes).length ∧
    ([0x41] : Bytes).length ≤ 255 ∧ (at1 (Asm.valEncRaw 1 [0x41])).req.rawval = .val [0x41] ∧
    (at1 (Asm.valDecRaw 1 [0x41])).req.rwidth = .val ([0x41] : Bytes).length ∧
    (at1 (Asm.valDecRaw 1 [0x41])).req.input = .val [0x41] := by decide

theorem witness_AnswersExactlyWellFormedRequests :
    Request.wellFormed tc1 .frmCsum (Asm.frmCsum []) = true ∧ Request.wellFormed tc1 .frmCsum {} = false := by decide

theorem witness_OnlyTheResponseChanges : ∃ t, exec .frmCsum (at1 (Asm.frmCsum [0x01])) = .next t := ⟨_, rfl⟩

/-- The same request with an old response in the record; and a refused one. -/
theorem witness_ResponseDependsOnRequestAndConfigurationOnly :
    ({ at1 (Asm.frmHunt []) with rsp := failed .badChecksum } : State).cfg = (at1 (Asm.frmHunt [])).cfg ∧
    ({ at1 (Asm.frmHunt []) with rsp := failed .badChecksum } : State).req = (at1 (Asm.frmHunt [])).req ∧
    (∃ t, exec .frmHunt (at1 (Asm.frmHunt [])) = .next t) ∧ (∃ e, exec .frmHunt (at1 {}) = .refused e) :=
  ⟨rfl, rfl, ⟨_, rfl⟩, ⟨_, rfl⟩⟩

/-- A request with every operand, so that every operation runs on it. -/
def everything : Request where
  ct := .val .error
  addr := .val 0
  len := .val 0
  payload := .val []
  input := .val [0x80]
  scale := .val 1
  labels := .val []
  rwidth := .val 1
  ival := .val 0
  qval := .val 0
  names := .val []
  rawval := .val [0x01]

/-- Each clause: the fields of its operation agree with `everything`, and another field does not. -/
theorem witness_OtherRequestFieldsAreIgnored :
    (∃ t, exec .frmEnc (at1 everything) = .next t) ∧ (∃ t, exec .frmHunt (at1 everything) = .next t) ∧
    (∃ t, exec (.valDecU .w4) (at1 everything) = .next t) ∧ (∃ t, exec (.valEncS .w1) (at1 everything) = .next t) ∧
    (∃ t, exec (.valDecFx .signed .w1) (at1 everything) = .next t) ∧
    (∃ t, exec (.valEncFx .signed .w1) (at1 everything) = .next t) ∧
    (∃ t, exec (.valDecBf .w1) (at1 everything) = .next t) ∧ (∃ t, exec (.valEncBf .w1) (at1 everything) = .next t) ∧
    (∃ t, exec .valDecRaw (at1 everything) = .next t) ∧ (∃ t, exec .valEncRaw (at1 everything) = .next t) ∧
    { everything with opc := .val 0xFF }.ct = everything.ct ∧ { everything with opc := .val 0xFF } ≠ everything :=
  ⟨⟨_, rfl⟩, ⟨_, rfl⟩, ⟨_, rfl⟩, ⟨_, rfl⟩, ⟨_, rfl⟩, ⟨_, rfl⟩, ⟨_, rfl⟩, ⟨_, rfl⟩, ⟨_, rfl⟩, ⟨_, rfl⟩, rfl, by decide⟩

theorem witness_WhichFieldsAnOperationWrites :
    (∃ t, exec .frmDec (at1 (Asm.frmDec baseFrame)) = .next t ∧ t.rsp.frame ≠ none) ∧
    (∃ t, exec .frmDec (at1 (Asm.frmDec [])) = .next t ∧ t.rsp.frame = none) :=
  ⟨⟨_, rfl, by decide⟩, ⟨_, rfl, by decide⟩⟩

theorem witness_AnErrorLeavesOnlyItsStatus :
    ∃ t, exec .frmHunt (at1 (Asm.frmHunt [])) = .next t ∧ t.rsp.status = some .truncated ∧ Status.truncated ≠ .ok :=
  ⟨_, rfl, by decide, by decide⟩

/-- Every operation that can raise an error does, on some input. -/
theorem witness_WhichErrorsAnOperationRaises :
    ask .frmDec (Asm.frmDec []) = some (failed .truncated) ∧ ask .frmHunt (Asm.frmHunt []) = some (failed .truncated) ∧
    ask (.valDecU .w1) (Asm.valDecU .w1 []) = some (failed .lengthMismatch) ∧
    ask (.valDecS .w1) (Asm.valDecS .w1 []) = some (failed .lengthMismatch) ∧
    ask (.valEncU .w1) (Asm.valEncU .w1 256) = some (failed .unrepresentable) ∧
    ask (.valEncS .w1) (Asm.valEncS .w1 128) = some (failed .unrepresentable) ∧
    ask (.valDecFx .signed .w1) (Asm.valDecFx .signed .w1 1 []) = some (failed .lengthMismatch) ∧
    ask (.valEncFx .signed .w1) (Asm.valEncFx .signed .w1 1 128) = some (failed .unrepresentable) ∧
    ask (.valDecBf .w1) (Asm.valDecBf .w1 panel []) = some (failed .lengthMismatch) ∧
    ask (.valEncBf .w1) (Asm.valEncBf .w1 panel [9]) = some (failed .unrepresentable) ∧
    ask .valDecRaw (Asm.valDecRaw 1 []) = some (failed .lengthMismatch) ∧
    ask .valEncRaw (Asm.valEncRaw 1 []) = some (failed .lengthMismatch) := by decide +kernel

/-- A later reset discards a response; a legal configuration boots; a first request can be issued. -/
theorem witness_RecordsHoldNoValueAfterReset :
    State.reset = State.reset ∧ (∃ u, (State.resetWith tc1) = State.hostReset u ∧ u.rsp ≠ {}) ∧
    boot tc1Params = .next (State.resetWith tc1) ∧ ∃ t, State.reset.issue (Asm.frmCsum []) = .next t :=
  ⟨rfl, ⟨{ State.resetWith tc1 with rsp := failed .truncated }, rfl, by decide⟩, rfl, ⟨_, rfl⟩⟩

theorem witness_ConfigurationIsLegalAndNeverChanges :
    (∃ t, step (at1 (Asm.frmCsum [])) = .next t) ∧ (∃ t, (State.resetWith tc1).issue (Asm.frmCsum []) = .next t) ∧
    ¬ [equalCodes.ctReadRequest, equalCodes.ctReadResponse, equalCodes.ctWriteRequest, equalCodes.ctWriteResponse,
      equalCodes.ctError].Nodup ∧
    noScale.scaleMax = .atMost 0 ∧
    [tc1Params.ctReadRequest, tc1Params.ctReadResponse, tc1Params.ctWriteRequest, tc1Params.ctWriteResponse,
      tc1Params.ctError].Nodup ∧ tc1Params.scaleMax ≠ .atMost 0 :=
  ⟨⟨_, rfl⟩, ⟨_, rfl⟩, by decide, rfl, by decide, by decide⟩

/-- A record with every field, for the reads that give a value; the one after reset is for those that find none. -/
def fullResponse : Response where
  status := some .ok
  out := some []
  frame := some { startByte := 0, protocolByte := 0, commandType := .error, address := 0, length := 0, payload := [],
                  checksum := 0 }
  consumed := some 7
  csum := some 0
  skip := some 0
  ival := some 0
  qval := some 0
  names := some []
  unlabelled := some 0

theorem witness_ReadingAFieldWithNoValueFaults :
    (at1 (Asm.frmCsum [])).inFlight = true ∧ State.reset.inFlight = false ∧
    ({ State.resetWith tc1 with rsp := fullResponse } : State).inFlight = false ∧
    (State.reset.rsp.status = none ∧ State.reset.rsp.out = none ∧ State.reset.rsp.frame = none ∧
      State.reset.rsp.consumed = none ∧ State.reset.rsp.csum = none ∧ State.reset.rsp.skip = none ∧
      State.reset.rsp.ival = none ∧ State.reset.rsp.qval = none ∧ State.reset.rsp.names = none ∧
      State.reset.rsp.unlabelled = none) ∧
    fullResponse.status = some .ok ∧ fullResponse.out = some [] ∧ (∃ f, fullResponse.frame = some f) ∧
    fullResponse.consumed = some 7 ∧ fullResponse.csum = some 0 ∧ fullResponse.skip = some 0 ∧
    fullResponse.ival = some 0 ∧ fullResponse.qval = some 0 ∧ fullResponse.names = some [] ∧
    fullResponse.unlabelled = some 0 :=
  ⟨rfl, rfl, rfl, by decide, rfl, rfl, ⟨_, rfl⟩, rfl, rfl, rfl, rfl, rfl, rfl, rfl⟩

theorem witness_OverlappingRequestIsRefused :
    (at1 (Asm.frmCsum [])).inFlight = true ∧ State.reset.inFlight = false := ⟨rfl, rfl⟩

theorem witness_StepKeepsTheInvariant :
    State.inv (at1 (Asm.frmDec baseFrame)) ∧ ∃ t, step (at1 (Asm.frmDec baseFrame)) = .next t := by
  refine ⟨⟨⟨fun _ => rfl, fun f h => ?_, fun _ => rfl, fun ns h => ?_⟩, fun h => ?_⟩, _, rfl⟩ <;> cases h

/-- An idle state with a response that answers its request, which the invariant's last clause is about. -/
theorem witness_StepKeepsTheInvariant_answered :
    ∃ t, step (at1 (Asm.frmCsum [])) = .next t ∧ t.inFlight = false ∧ t.rsp ≠ {} ∧ State.answered t :=
  ⟨_, rfl, rfl, by decide, .frmCsum, _, rfl, rfl, rfl⟩

theorem witness_InvariantHoldsWheneverReachable :
    ∃ s t, Reachable s ∧ step s = .next t ∧ Reachable t ∧ ¬ everyReadFaults t :=
  have h : Reachable (at1 (Asm.frmCsum [])) :=
    .issue (State.resetWith tc1) _ (Asm.frmCsum []) (.boot tc1Params _ rfl) rfl
  ⟨_, _, h, rfl, .step _ _ h rfl, fun ⟨⟨_, he⟩, _⟩ => by cases he⟩

theorem witness_LinksAreIndependent :
    ∃ links', stepLink 1 [State.reset, at1 (Asm.frmCsum [])] = .next links' ∧ 0 ≠ 1 ∧
      [State.reset, at1 (Asm.frmCsum [])][1]? = some (at1 (Asm.frmCsum [])) :=
  ⟨_, rfl, by decide, rfl⟩

/-- Noise as long as the scan window. -/
theorem witness_ReceiveFindsTheFrame :
    ∃ d, exec .frmEnc (at1 baseRequest) = .next d ∧ d.rsp.out = some baseFrame ∧
      (at1 baseRequest).req.ct = .val .readResponse ∧ (at1 baseRequest).req.addr = .val 0x6304 ∧
      (at1 baseRequest).req.payload = .val [0x00, 0xAC] ∧ (State.resetWith tc1).cfg = (at1 baseRequest).cfg ∧
      (State.resetWith tc1).inFlight = false ∧ ([0x00, 0xFF, 0x00, 0xFF] : Bytes).length ≤ tc1.scanWindow ∧
      ∀ x ∈ ([0x00, 0xFF, 0x00, 0xFF] : Bytes), x ≠ tc1.startByte :=
  ⟨_, rfl, rfl, rfl, rfl, rfl, rfl, rfl, by decide, by decide⟩

theorem witness_PutFramesTheEncodedValue :
    (State.resetWith tc1).inFlight = false ∧ 0xFFFF < 2 ^ 16 ∧
    (∃ u, perform (encodeRequest (.unsignedInt .w1) .unsigned (.int 255)) (State.resetWith tc1) = .next u ∧
      u.rsp.status = some .ok) ∧
    (∃ u, perform (encodeRequest (.unsignedInt .w1) .unsigned (.int 256)) (State.resetWith tc1) = .next u ∧
      u.rsp.status ≠ some .ok) :=
  ⟨rfl, by decide, ⟨_, rfl, by decide⟩, ⟨_, rfl, by decide⟩⟩

/-- The Error frame, and an ordinary one, each with a decode of its payload; and a program with the second between. -/
theorem witness_DecodingAnErrorPayloadIsFlaggedNotRefused :
    (State.resetWith tc1).inFlight = false ∧
    (∃ g, (frmDec tc1 errorFrame).frame = some g ∧ g.commandType = .error ∧
      fetch (Asm.valDecU .w1 g.payload) = .ok (.valDecU .w1) ∧ Instr.isValueDecode (.valDecU .w1) = true ∧
      Request.wellFormed tc1 (.valDecU .w1) (Asm.valDecU .w1 g.payload) = true ∧
      (Asm.valDecU .w1 g.payload).input = .val g.payload) ∧
    (∃ u, runRequests [Asm.frmDec errorFrame, Asm.frmDec baseFrame] (State.resetWith tc1) = .next u) ∧
    (∃ g, (frmDec tc1 baseFrame).frame = some g ∧ g.commandType ≠ .error ∧
      Request.wellFormed tc1 (.valDecU .w2) (Asm.valDecU .w2 g.payload) = true ∧
      (Asm.valDecU .w2 g.payload).input = .val g.payload) :=
  ⟨rfl, ⟨_, rfl, rfl, rfl, rfl, rfl, rfl⟩, ⟨_, rfl⟩, ⟨_, rfl, by decide, rfl, rfl⟩⟩

end Sys2Proof.Tests
end

section
/-! PROOFS. The rounding and the command-type codes of 00_scope.md. -/

namespace Sys2Proof.Machine

/-- Settles O28. The law is `roundHalfAway_eq`; each example is the spec's own expression, in which `norm_num` evaluates
the floor, after R107's product is written as a product. -/
theorem roundingIsHalfAwayFromZero : Obligations.RoundingIsHalfAwayFromZero := by
  refine ⟨fun x => (roundHalfAway_eq x).symm, ?_⟩
  norm_num [roundHaz_eq, timesScale_eq, abs_div]

/-- Settles O9. The five codes are read off `code`; the inverse is `Config.ctOf_eq_some_iff`, which rests on the codes
of a legal configuration being distinct (R26). -/
theorem commandTypeCodes : Obligations.CommandTypeCodes :=
  fun cfg => ⟨rfl, rfl, rfl, rfl, rfl, cfg.ctOf_eq_some_iff⟩

end Sys2Proof.Machine
end

section
/-! PROOFS. The invariant of the block: each answer is well-formed, and after a step it is the answer to the request in the
record (10_state.md R22, R29, R32; 20_memory.md R45; 40_frame.md R76; 60_exceptions.md R132). -/

namespace Sys2Proof.Machine

/-- Every answer an operation can give is one the invariant allows. Only FRM.DEC's frame and VAL.DEC.BF's set of names have
something to show. -/
theorem Answer.wf {cfg : Config} {req : Request} {i : Instr} {r : Response} (h : Answer cfg req i r) :
    Response.wf cfg r := by
  cases h with
  | frmDec b ct _ hl hc hct =>
    have hf := parsedFrame_wf cfg b ct hl hc hct
    exact ⟨by simp, by rintro _ ⟨rfl⟩; exact ⟨hf, rfl⟩, by simp, by simp⟩
  | valDecBf _ _ _ _ hns => exact ⟨by simp, by simp, by simp, by rintro _ ⟨rfl⟩; exact hns⟩
  | _ => simp [Response.wf, Response.bare, raiseError]

/-- The empty response of reset meets the invariant. -/
theorem emptyResponse_wf (cfg : Config) : Response.wf cfg {} := by simp [Response.wf, Response.bare]

/-- R45: once an operation has written its response, the record holds the response to the request beside it. -/
theorem respond_answered (s : State) (i : Instr) (rsp : Response) (hi : fetch s.req = .ok i)
    (hr : response s.cfg i s.req = .ok rsp) : (s.respond rsp).answered :=
  ⟨i, s.respond rsp, hi, (exec_next_iff _ _ _).mpr ⟨rsp, hr, rfl⟩, rfl⟩

/-- The reset state meets the invariant under every configuration. -/
theorem resetWith_inv (cfg : Config) : (State.resetWith cfg).inv := ⟨emptyResponse_wf cfg, fun _ => .inl rfl⟩

/-- Settles O55. An idle step changes nothing; a step that runs an operation leaves a well-formed answer, which is the one
to the request in the record whatever stood there before. -/
theorem stepKeepsTheInvariant : Obligations.StepKeepsTheInvariant := by
  intro s t hs h
  obtain ⟨-, rfl⟩ | ⟨-, i, rsp, hi, hr, rfl⟩ := step_next_cases s t h
  · exact hs
  · exact ⟨(response_answer _ _ _ _ hr).wf, fun _ => .inr (respond_answered s i rsp hi hr)⟩

/-- Settles O54. -/
theorem invariantAtReset : Obligations.InvariantAtReset := ⟨resetWith_inv _, resetWith_inv⟩

end Sys2Proof.Machine
end

section
/-! PROOFS. What an operation reads and what it writes (10_state.md R20 to R23, R32; 30_encoding.md R64). -/

namespace Sys2Proof.Machine

/-- Settles O43. -/
theorem onlyTheResponseChanges : Obligations.OnlyTheResponseChanges := by
  intro i s t h
  obtain ⟨rsp, -, rfl⟩ := (exec_next_iff i s t).mp h
  exact ⟨rfl, rfl, rfl, rfl⟩

/-- An operation that answers in one state answers the same in every state in which its `response` is the same. -/
theorem exec_next_of_response_eq {i : Instr} {s s' t : State}
    (heq : response s'.cfg i s'.req = response s.cfg i s.req) (h : exec i s = .next t) :
    ∃ t', exec i s' = .next t' ∧ t'.rsp = t.rsp := by
  obtain ⟨rsp, hr, rfl⟩ := (exec_next_iff i s t).mp h
  exact ⟨s'.respond rsp, (exec_next_iff _ _ _).mpr ⟨rsp, heq.trans hr, rfl⟩, rfl⟩

/-- Settles O44. The response is `response` of the configuration and the request, which the other state shares and the
resulting state keeps. -/
theorem responseDependsOnRequestAndConfigurationOnly :
    Obligations.ResponseDependsOnRequestAndConfigurationOnly := by
  intro i s s' hcfg hreq
  have heq : response s'.cfg i s'.req = response s.cfg i s.req := by rw [hcfg, hreq]
  constructor
  · intro t h
    obtain ⟨htcfg, htreq, -, ht⟩ := onlyTheResponseChanges i s t h
    exact ⟨exec_next_of_response_eq heq h, exec_next_of_response_eq (by rw [htcfg, htreq]) h, ht⟩
  · intro e h
    exact (exec_refused_iff _ _ _).mpr (heq.trans ((exec_refused_iff _ _ _).mp h))

/-- Two requests agree on the operands that R64 gives an operation. -/
def Request.sameOperands (r r' : Request) : Instr → Prop
  | .frmEnc => r.ct = r'.ct ∧ r.addr = r'.addr ∧ r.len = r'.len ∧ r.payload = r'.payload
  | .frmDec | .frmCsum | .frmHunt | .valDecU _ | .valDecS _ => r.input = r'.input
  | .valEncU _ | .valEncS _ => r.ival = r'.ival
  | .valDecFx _ _ => r.input = r'.input ∧ r.scale = r'.scale
  | .valEncFx _ _ => r.qval = r'.qval ∧ r.scale = r'.scale
  | .valDecBf _ => r.input = r'.input ∧ r.labels = r'.labels
  | .valEncBf _ => r.names = r'.names ∧ r.labels = r'.labels
  | .valDecRaw => r.input = r'.input ∧ r.rwidth = r'.rwidth
  | .valEncRaw => r.rawval = r'.rawval ∧ r.rwidth = r'.rwidth

/-- An operation's response is the same for two requests that agree on its operands: each reader of Machine/Operands.lean
looks at no other field. -/
theorem response_congr (cfg : Config) (i : Instr) (r r' : Request) (h : Request.sameOperands r r' i) :
    response cfg i r = response cfg i r' := by
  cases i <;> simp only [Request.sameOperands] at h <;>
    simp only [response, readFrmEnc, readInput, readIval, readDecFx, readEncFx, readScale, readDecBf, readEncBf,
      readLabels, readDecRaw, readEncRaw, readRawWidth, h]

/-- So is its answer, in a state whose request is replaced. -/
theorem exec_next_of_sameOperands {i : Instr} {s : State} {r : Request} (h : Request.sameOperands r s.req i) :
    ∀ t, exec i s = .next t → ∃ t', exec i { s with req := r } = .next t' ∧ t'.rsp = t.rsp :=
  fun _ ht => exec_next_of_response_eq (response_congr s.cfg i r s.req h) ht

/-- Settles O45. Each clause lists the operands of `Request.sameOperands`. -/
theorem otherRequestFieldsAreIgnored : Obligations.OtherRequestFieldsAreIgnored := by
  intro s r
  refine ⟨?frmEnc, ?input, ?ival, ?valDecFx, ?valEncFx, ?valDecBf, ?valEncBf, ?valDecRaw, ?valEncRaw⟩
  case frmEnc =>
    rintro _ hct haddr hlen hpayload rfl
    exact exec_next_of_sameOperands ⟨hct, haddr, hlen, hpayload⟩
  case input => rintro _ hin (rfl | rfl | rfl | ⟨w, rfl | rfl⟩) <;> exact exec_next_of_sameOperands hin
  case ival => rintro _ hival ⟨w, rfl | rfl⟩ <;> exact exec_next_of_sameOperands hival
  case valDecFx => exact fun sg w hin hscale => exec_next_of_sameOperands (i := .valDecFx sg w) ⟨hin, hscale⟩
  case valEncFx => exact fun sg w hq hscale => exec_next_of_sameOperands (i := .valEncFx sg w) ⟨hq, hscale⟩
  case valDecBf => exact fun w hin hlabels => exec_next_of_sameOperands (i := .valDecBf w) ⟨hin, hlabels⟩
  case valEncBf => exact fun w hns hlabels => exec_next_of_sameOperands (i := .valEncBf w) ⟨hns, hlabels⟩
  case valDecRaw => exact fun hin hwidth => exec_next_of_sameOperands (i := .valDecRaw) ⟨hin, hwidth⟩
  case valEncRaw => exact fun hraw hwidth => exec_next_of_sameOperands (i := .valEncRaw) ⟨hraw, hwidth⟩

/-- With nothing in flight, a field is written exactly where its row says as soon as it holds a value exactly there: a read
gives what the field holds (R32). -/
theorem writtenExactly_of_isSome_iff {α : Type} {s : State} {field : ResponseField} {value : Response → Option α}
    {written : Prop} (hidle : s.inFlight = false) (h : (value s.rsp).isSome = true ↔ written) :
    writtenExactly field (value s.rsp) (s.readField field value) written := by
  rw [readField_idle s field value hidle, ← h]
  cases value s.rsp with
  | none => exact ⟨by simp, fun _ => ⟨rfl, rfl⟩⟩
  | some a => exact ⟨fun _ => ⟨a, rfl, rfl⟩, by simp⟩

/-- FRM.CSUM raises no error, so its `csum` is written on every outcome (R131). -/
theorem raises_ne_frmCsum (i : Instr) (e : Status) (h : raises i e) : i ≠ .frmCsum := by
  rintro rfl; exact h

/-- Settles O46. Each row is a case split over the shapes of an answer: an error holds its status alone, and OK exactly the
fields of the operation's rows. -/
theorem whichFieldsAnOperationWrites : Obligations.WhichFieldsAnOperationWrites := by
  intro i s t h
  obtain ⟨rsp, hr, rfl⟩ := (exec_next_iff i s t).mp h
  have ha := response_answer _ _ _ _ hr
  refine ⟨writtenExactly_of_isSome_iff rfl ?_, writtenExactly_of_isSome_iff rfl ?_,
    writtenExactly_of_isSome_iff rfl ?_, writtenExactly_of_isSome_iff rfl ?_, writtenExactly_of_isSome_iff rfl ?_,
    writtenExactly_of_isSome_iff rfl ?_, writtenExactly_of_isSome_iff rfl ?_, writtenExactly_of_isSome_iff rfl ?_,
    writtenExactly_of_isSome_iff rfl ?_, writtenExactly_of_isSome_iff rfl ?_⟩
  all_goals
    cases ha with
    | error _ e he => simp [raiseError, raises_ne_ok _ _ he, raises_ne_frmCsum _ _ he]
    | _ => simp

end Sys2Proof.Machine
end

section
/-! PROOFS. Steps, the host's actions and several links (10_state.md R20, R26, R32, R33). -/

namespace Sys2Proof.Machine

/-- Settles O5. -/
theorem stepRunsTheDecodedOperation : Obligations.StepRunsTheDecodedOperation := by
  intro s o i hf ho hi
  have hfetch : fetch s.req = .ok i := (fetch_ok_iff _ _).mpr ⟨o, ho, hi⟩
  rw [step_inFlight s hf, hfetch]

/-- R26 and R8: what makes a configuration legal. -/
theorem ConfigParams.legal_iff (p : ConfigParams) :
    p.legal = true ↔ p.codes.Nodup ∧ p.scaleMax ≠ .atMost 0 := by
  have hscale : p.scaleMaxPositive = true ↔ p.scaleMax ≠ .atMost 0 := by
    unfold ConfigParams.scaleMaxPositive
    cases p.scaleMax <;> simp [Nat.one_le_iff_ne_zero]
  rw [ConfigParams.legal, Bool.and_eq_true, ConfigParams.codesDistinct, decide_eq_true_iff, hscale]

/-- Settles O51. -/
theorem configurationIsLegalAndNeverChanges : Obligations.ConfigurationIsLegalAndNeverChanges := by
  refine ⟨fun s t => ⟨step_cfg s t, rfl, fun r h => ?_⟩, fun p => ⟨fun h => ?_, fun hcodes hscale => ?_⟩⟩
  · obtain ⟨-, rfl⟩ := (issue_next_iff s t r).mp h
    rfl
  · refine boot_refused p (Bool.eq_false_iff.mpr fun hlegal => ?_)
    obtain ⟨hcodes, hscale⟩ := (ConfigParams.legal_iff p).mp hlegal
    exact h.elim (· hcodes) hscale
  · exact ⟨_, (boot_next_iff p _).mpr ⟨(ConfigParams.legal_iff p).mpr ⟨hcodes, hscale⟩, rfl⟩, rfl⟩

/-- R32: with nothing in flight, reading a field that holds no value faults, naming the field. -/
theorem readField_noValue {α : Type} (s : State) (f : ResponseField) (v : Response → Option α)
    (hidle : s.inFlight = false) (hv : v s.rsp = none) : s.readField f v = .error (.noValue f) := by
  rw [readField_idle s f v hidle, hv]

/-- With nothing in flight, a field that holds a value reads as it. -/
theorem readField_value {α : Type} (s : State) (f : ResponseField) (v : Response → Option α)
    (hidle : s.inFlight = false) (a : α) (hv : v s.rsp = some a) : s.readField f v = .ok a :=
  (readField_ok_iff s f v a).mpr ⟨hidle, hv⟩

/-- Settles O52. The three cases of a read, for each of the ten fields. -/
theorem readingAFieldWithNoValueFaults : Obligations.ReadingAFieldWithNoValueFaults := fun s =>
  ⟨readField_pending s _ _, readField_pending s _ _, readField_pending s _ _, readField_pending s _ _,
    readField_pending s _ _, readField_pending s _ _, readField_pending s _ _, readField_pending s _ _,
    readField_pending s _ _, readField_pending s _ _,
    readField_noValue s _ _, readField_noValue s _ _, readField_noValue s _ _, readField_noValue s _ _,
    readField_noValue s _ _, readField_noValue s _ _, readField_noValue s _ _, readField_noValue s _ _,
    readField_noValue s _ _, readField_noValue s _ _,
    readField_value s _ _, readField_value s _ _, readField_value s _ _, readField_value s _ _,
    readField_value s _ _, readField_value s _ _, readField_value s _ _, readField_value s _ _,
    readField_value s _ _, readField_value s _ _⟩

/-- If a step of a link answers a next system, then there is no such link and nothing changed, or its block stepped and
stands in its place. -/
theorem stepLink_next_cases (k : Nat) (links links' : List State) (h : stepLink k links = .next links') :
    (links[k]? = none ∧ links' = links) ∨
      ∃ s t, links[k]? = some s ∧ step s = .next t ∧ links' = links.set k t := by
  unfold stepLink at h
  cases hk : links[k]? with
  | none => exact .inl ⟨rfl, by simpa [hk] using h.symm⟩
  | some s =>
    cases hs : step s with
    | next t => exact .inr ⟨s, t, rfl, hs, by simpa [hk, hs] using h.symm⟩
    | fault f => simp [hk, hs] at h
    | refused e => simp [hk, hs] at h

/-- Settles O57. -/
theorem linksAreIndependent : Obligations.LinksAreIndependent := by
  intro k links links' h
  obtain ⟨hk, rfl⟩ | ⟨s, t, hk, hs, rfl⟩ := stepLink_next_cases k links links' h
  · exact ⟨rfl, fun _ _ => rfl, fun s hs => by simp [hk] at hs⟩
  · obtain ⟨hlt, -⟩ := List.getElem?_eq_some_iff.mp hk
    refine ⟨List.length_set, fun j hj => List.getElem?_set_ne hj.symm, fun u hu => ?_⟩
    obtain rfl : s = u := Option.some.inj (hk.symm.trans hu)
    exact ⟨t, hs, List.getElem?_set_self hlt⟩

end Sys2Proof.Machine
end

section
/-! PROOFS. What a host can rely on between requests: the invariant in every reachable state (20_memory.md R45), and what a
stored table word runs (20_memory.md R48; log 7). -/

namespace Sys2Proof.Machine

/-- Issuing a request keeps the invariant: the response record stays, and the request is in flight. -/
theorem issue_keeps_inv (s t : State) (r : Request) (hs : s.inv) (h : s.issue r = .next t) : t.inv := by
  obtain ⟨hwf, -⟩ := hs
  obtain ⟨-, rfl⟩ := (issue_next_iff s t r).mp h
  exact ⟨hwf, by simp⟩

/-- The invariant holds after every reset and start, and issuing a request and stepping keep it. -/
theorem Reachable.inv {s : State} (h : Reachable s) : s.inv := by
  induction h with
  | reset => exact resetWith_inv _
  | boot p t h =>
    obtain ⟨-, rfl⟩ := (boot_next_iff p t).mp h
    exact resetWith_inv _
  | issue s t r _ h ih => exact issue_keeps_inv s t r ih h
  | step s t _ h ih => exact stepKeepsTheInvariant s t ih h
  | hostReset s _ _ => exact resetWith_inv s.cfg

/-- R45: in a state that meets the invariant, a field can be read only when nothing is in flight and the record holds a
response, which is then the one to the request beside it. -/
theorem State.inv.answered_of_readable {s : State} (hs : s.inv) (hread : ¬ everyReadFaults s) : s.answered := by
  obtain ⟨-, hidle⟩ := hs
  have hflight : s.inFlight = false := Bool.eq_false_iff.mpr fun h => hread (everyReadFaults_of s (.inl h))
  exact (hidle hflight).resolve_left fun h => hread (everyReadFaults_of s (.inr h))

/-- Settles O56. -/
theorem invariantHoldsWheneverReachable : Obligations.InvariantHoldsWheneverReachable :=
  fun _ h => ⟨h.inv, h.inv.answered_of_readable⟩

/-- A table word decodes as the `opc` byte that its low bits are. -/
theorem decodeTableWord_eq_some_iff (w : Nat) (i : Instr) :
    decodeTableWord 8 w = some i ↔ decodeOpc (BitVec.ofNat 8 (w % 2 ^ 8)) = .ok i := by
  have hlt : w % 2 ^ 8 < 256 := Nat.mod_lt w (by decide)
  simp only [decodeTableWord, if_pos hlt]
  cases decodeOpc (BitVec.ofNat 8 (w % 2 ^ 8)) <;> simp

/-- A scale of 1 is within every `SCALE_MAX` (R8, log 3). -/
theorem scaleInRange_one (cfg : Config) : scaleInRange cfg.scaleMax 1 = true :=
  (checkScale_ok_iff cfg.scaleMax cfg.scaleMax_pos 1).mp rfl

/-- The values that storing a table word fills an empty request with pass every operation's checks. Only the scale's check
depends on the configuration. -/
theorem withFetchWord_resetWith_wellFormed (cfg : Config) (w : Nat) (i : Instr) :
    Request.wellFormed cfg i ((State.resetWith cfg).withFetchWord 8 w).req = true := by
  cases i with
  | valDecFx _ _ => exact scaleInRange_one cfg
  | valEncFx _ _ => exact scaleInRange_one cfg
  | _ => rfl

/-- Settles O7. The first part is O5 for the stored word; from reset the filled operands are well-formed, so the operation
has a response. -/
theorem storedTableWordIsRunNext : Obligations.StoredTableWordIsRunNext := by
  intro w i h
  have hrun : ∀ s : State, step (s.withFetchWord 8 w) = exec i (s.withFetchWord 8 w) := fun s =>
    stepRunsTheDecodedOperation _ _ i rfl rfl ((decodeTableWord_eq_some_iff w i).mp h)
  refine ⟨hrun, ?_⟩
  obtain ⟨rsp, hr⟩ := (response_ok_iff_wellFormed _ i _).mpr
    (withFetchWord_resetWith_wellFormed Config.parameters w i)
  exact ⟨_, (hrun State.reset).trans ((exec_next_iff i _ _).mpr ⟨rsp, hr, rfl⟩)⟩

end Sys2Proof.Machine
end

section
/-! PROOFS. The operation-code byte (30_encoding.md R60 to R63, R68). -/

namespace Sys2Proof.Machine

theorem Width.code_le (w : Width) : w.code ≤ 2 := by cases w <;> decide

theorem Signedness.bit_le (sg : Signedness) : sg.bit ≤ 1 := by cases sg <;> decide

/-- The fields of an encoded operation do not overlap: OP is at most 0xD, S is one bit and WC is not the reserved code. -/
theorem Instr.fields_le (i : Instr) : i.op ≤ 0xD ∧ i.sBit ≤ 1 ∧ i.wc ≤ 2 := by
  cases i <;> simp [Instr.op, Instr.sBit, Instr.wc, Width.code_le, Signedness.bit_le]

/-- R68: the formula's number is the encoded byte itself, because it is below 2^8. -/
theorem encode_toNat (i : Instr) : (encode i).toNat = i.op * 16 + i.sBit * 4 + i.wc := by
  obtain ⟨hop, hs, hwc⟩ := Instr.fields_le i
  rw [encode, BitVec.toNat_ofNat]
  exact Nat.mod_eq_of_lt (by omega)

/-- Settles O1. -/
theorem opcodeIsOpSignAndWidth : Obligations.OpcodeIsOpSignAndWidth :=
  ⟨encode_toNat, by decide⟩

/-- Settles O2, by running the decoder on each of the fifteen words. -/
theorem everyTableRowDecodes : Obligations.EveryTableRowDecodes := by
  unfold Obligations.EveryTableRowDecodes
  decide

/-- Settles O3. The two directions are `decodeOpc_encode` and `decodeOpc_ok_encode`; the step is O5 on the encoded byte. -/
theorem decodeAndEncodeAgree : Obligations.DecodeAndEncodeAgree :=
  ⟨decodeOpc_encode, decodeOpc_ok_encode, fun i s hf ho =>
    stepRunsTheDecodedOperation s (encode i) i hf ho (decodeOpc_encode i)⟩

end Sys2Proof.Machine
end

section
/-! PROOFS. Which requests are answered and which are refused (30_encoding.md R65; 60_exceptions.md R135, R137). -/

namespace Sys2Proof.Machine

/-- Settles O42. An operation concludes with its `response`, which is there exactly where the request is well-formed. -/
theorem answersExactlyWellFormedRequests : Obligations.AnswersExactlyWellFormedRequests := by
  intro i s
  refine ⟨fun hwf => ?_, fun hill => ?_, exec_ne_fault i s⟩
  · obtain ⟨rsp, hr⟩ := (response_ok_iff_wellFormed s.cfg i s.req).mpr hwf
    exact ⟨_, (exec_next_iff i s _).mpr ⟨rsp, hr, rfl⟩⟩
  · cases hr : response s.cfg i s.req with
    | ok rsp => simp [(response_ok_iff_wellFormed s.cfg i s.req).mp ⟨rsp, hr⟩] at hill
    | error e => exact ⟨e, (exec_refused_iff i s e).mpr hr⟩

/-- The ten items of R65 together: a request is free of them exactly when its `opc` decodes to an operation and its operands
are well-formed for that operation. -/
theorem not_illFormed_iff (cfg : Config) (req : Request) :
    ¬ illFormed cfg req ↔ ∃ i, fetch req = .ok i ∧ Request.wellFormed cfg i req = true := by
  constructor
  · intro h
    obtain habsent | ⟨o, ho⟩ := Slot.absent_or req.opc
    · exact absurd (.inl habsent) h
    cases hdec : decodeOpc o with
    | error e => exact absurd (.inr ⟨o, ho, .inl ((decodeOpc_error_iff o).mp ⟨e, hdec⟩)⟩) h
    | ok i =>
      refine ⟨i, (fetch_ok_iff req i).mpr ⟨o, ho, hdec⟩, (wellFormed_iff cfg i req).mpr fun hops => h ?_⟩
      rw [decodeOpc_ok_encode o i hdec] at hops
      exact .inr ⟨o, ho, .inr hops⟩
  · rintro ⟨i, hi, hwf⟩ (habsent | ⟨o, ho, hill⟩) <;> obtain ⟨o', ho', hdec⟩ := (fetch_ok_iff req i).mp hi
    · exact habsent o' ho'
    · obtain rfl : o = o' := Slot.val.inj (ho.symm.trans ho')
      obtain hcode | hops := hill
      · obtain ⟨e, he⟩ := (decodeOpc_error_iff o).mpr hcode
        simp [he] at hdec
      · rw [← decodeOpc_ok_encode o i hdec] at hops
        exact (wellFormed_iff cfg i req).mp hwf hops

/-- Settles O4. Where no item holds, the operation that `opc` decodes to answers (O42). Where one holds, either no operation
is fetched, or one is and its operands are ill-formed, and both are refusals. -/
theorem aRequestIsRefusedExactlyWhereIllFormed : Obligations.ARequestIsRefusedExactlyWhereIllFormed := by
  intro s hf
  rw [step_inFlight s hf]
  constructor
  · intro hill
    cases hi : fetch s.req with
    | error e => exact ⟨e, rfl⟩
    | ok i =>
      obtain ⟨-, hrefused, -⟩ := answersExactlyWellFormedRequests i s
      exact hrefused (Bool.eq_false_iff.mpr fun hwf => (not_illFormed_iff _ _).mpr ⟨i, hi, hwf⟩ hill)
  · intro hwell
    obtain ⟨i, hi, hwf⟩ := (not_illFormed_iff _ _).mp hwell
    obtain ⟨hnext, -, -⟩ := answersExactlyWellFormedRequests i s
    rw [hi]
    exact hnext hwf

end Sys2Proof.Machine
end

section
/-! PROOFS. The pseudo-operations FRM.RECV and FRM.PUT (30_encoding.md R69). -/

namespace Sys2Proof.Machine

/-- What an idle block answers to a performed request: the operation it asks for ran, and its response stands beside the
request. -/
theorem perform_next_iff (s t : State) (r : Request) (h : s.inFlight = false) :
    perform r s = .next t ↔
      ∃ i rsp, fetch r = .ok i ∧ response s.cfg i r = .ok rsp ∧ t = { s with req := r, rsp := rsp, inFlight := false } := by
  constructor
  · intro hp
    simp only [perform, issue_idle s r h] at hp
    obtain ⟨hidle, -⟩ | ⟨-, hran⟩ := step_next_cases _ t hp
    · cases hidle
    · exact hran
  · rintro ⟨i, rsp, hi, hr, rfl⟩
    rw [perform_idle s r h i hi]
    exact (exec_next_iff i _ _).mpr ⟨rsp, hr, rfl⟩

/-- So a performed request whose operation has a response gets it. -/
theorem perform_of_response {s : State} {r : Request} {i : Instr} {rsp : Response} (h : s.inFlight = false)
    (hi : fetch r = .ok i) (hr : response s.cfg i r = .ok rsp) :
    perform r s = .next { s with req := r, rsp := rsp, inFlight := false } :=
  (perform_next_iff s _ r h).mpr ⟨i, rsp, hi, hr, rfl⟩

theorem perform_frmHunt (s : State) (b : Bytes) (h : s.inFlight = false) :
    perform (Asm.frmHunt b) s =
      .next { s with req := Asm.frmHunt b, rsp := frmHunt s.cfg b, inFlight := false } :=
  perform_of_response h (i := .frmHunt) rfl rfl

theorem perform_frmDec (s : State) (b : Bytes) (h : s.inFlight = false) :
    perform (Asm.frmDec b) s = .next { s with req := Asm.frmDec b, rsp := frmDec s.cfg b, inFlight := false } :=
  perform_of_response h (i := .frmDec) rfl rfl

/-- FRM.ENC completes for a payload and an address that fit (R65 item 6, R73). -/
theorem perform_frmEnc (s : State) (ct : CommandType) (addr : Nat) (payload : Bytes) (h : s.inFlight = false)
    (hlen : payload.length ≤ 255) (haddr : addr < 2 ^ 16) :
    perform (Asm.frmEnc ct addr payload.length payload) s =
      .next { s with
        req := Asm.frmEnc ct addr payload.length payload
        rsp := frmEnc s.cfg ct addr payload.length payload
        inFlight := false } := by
  have hread : readFrmEnc (Asm.frmEnc ct addr payload.length payload) = .ok (ct, addr, payload.length, payload) :=
    (readFrmEnc_ok_iff _ _ _ _ _).mpr ⟨rfl, rfl, rfl, rfl, rfl, hlen, haddr⟩
  exact perform_of_response h (i := .frmEnc) rfl ((map_ok_iff _ _ _).mpr ⟨_, hread, rfl⟩)

/-- FRM.RECV decodes from where its hunt found a start byte. -/
theorem frmRecv_of_hunt (s : State) (b : Bytes) (k : Nat) (h : s.inFlight = false)
    (hk : frmHunt s.cfg b = { status := some .ok, skip := some k }) :
    ∃ t, frmRecv b s = .next t ∧ t.rsp = frmDec s.cfg (b.drop k) := by
  simp [frmRecv, perform_frmHunt s b h, hk, perform_frmDec]

/-- FRM.PUT ends where its value encode fails. -/
theorem frmPut_of_encode_failed {s u : State} {t : ValueType} {sg : Signedness} {v : Value} {ct : CommandType} {addr : Nat}
    (h : perform (encodeRequest t sg v) s = .next u) (hfail : u.rsp.status ≠ some .ok) :
    frmPut t sg v ct addr s = .next u := by
  simp only [frmPut, h]
  split
  · next hok _ => exact absurd hok hfail
  · rfl

/-- FRM.PUT frames the bytes of its value encode. -/
theorem frmPut_of_encode_ok {s u : State} {t : ValueType} {sg : Signedness} {v : Value} {ct : CommandType} {addr : Nat}
    {out : Bytes} (h : perform (encodeRequest t sg v) s = .next u) (hok : u.rsp.status = some .ok)
    (hout : u.rsp.out = some out) :
    frmPut t sg v ct addr s = perform (Asm.frmEnc ct addr out.length out) u := by
  simp [frmPut, h, hok, hout]

/-- A hunt skips noise that holds no start byte and fits the window (R85). -/
theorem frmHunt_noise (cfg : Config) (noise rest : Bytes) (hrest : rest[0]? = some cfg.startByte)
    (hfit : noise.length ≤ cfg.scanWindow) (hnoise : ∀ x ∈ noise, x ≠ cfg.startByte) :
    frmHunt cfg (noise ++ rest) = { status := some .ok, skip := some noise.length } := by
  have hfound : huntFrom cfg.startByte (noise ++ rest) cfg.scanWindow = some noise.length := by
    refine (huntFrom_some_iff _ _ _ _).mpr ⟨hfit, by simpa [List.getElem?_append_right] using hrest, fun j hj => ?_⟩
    rw [List.getElem?_append_left hj, List.getElem?_eq_getElem hj]
    exact fun h => hnoise _ (List.getElem_mem hj) (Option.some.inj h)
  simp [frmHunt, hfound]

/-- The two address bytes of a frame give the address back (R50, R75). -/
theorem address_of_bytes (addr : Nat) (h : addr < 2 ^ 16) :
    (BitVec.ofNat 8 (addr / 256)).toNat * 256 + (BitVec.ofNat 8 (addr % 256)).toNat = addr := by
  simp only [BitVec.toNat_ofNat]
  omega

/-- An encoded frame decodes to its own fields, whatever follows it (R75, R78, R81). -/
theorem frmDec_frameBytes (cfg : Config) (ct : CommandType) (addr : Nat) (payload tail : Bytes)
    (haddr : addr < 2 ^ 16) (hlen : payload.length ≤ 255) :
    ∃ g, frmDec cfg (frameBytes cfg ct addr payload.length payload ++ tail) =
        { status := some .ok, frame := some g, consumed := some (7 + payload.length) } ∧
      g.commandType = ct ∧ g.address = addr ∧ g.payload = payload := by
  have hbyte : payload.length = (BitVec.ofNat 8 payload.length).toNat := by
    simp only [BitVec.toNat_ofNat]
    omega
  rw [frameBytes_eq]
  exact ⟨_, frmDec_anyFrame cfg _ _ _ _ _ _ payload tail ct hbyte rfl, rfl, address_of_bytes addr haddr, rfl⟩

/-- What FRM.ENC answers, and what it asked of its operands (R65 item 6, R73). -/
theorem exec_frmEnc_next (e d : State) (ct : CommandType) (addr : Nat) (payload : Bytes)
    (h : exec .frmEnc e = .next d) (hct : e.req.ct = .val ct) (haddr : e.req.addr = .val addr)
    (hpayload : e.req.payload = .val payload) :
    payload.length ≤ 255 ∧ addr < 2 ^ 16 ∧ d.rsp.out = some (frameBytes e.cfg ct addr payload.length payload) := by
  obtain ⟨rsp, hr, rfl⟩ := (exec_next_iff .frmEnc e d).mp h
  obtain ⟨⟨ct', addr', len, payload'⟩, hread, rfl⟩ := (map_ok_iff _ _ _).mp hr
  obtain ⟨hct', haddr', -, hpayload', rfl, hlen, hlt⟩ := (readFrmEnc_ok_iff _ _ _ _ _).mp hread
  obtain rfl : ct = ct' := Slot.val.inj (hct.symm.trans hct')
  obtain rfl : addr = addr' := Slot.val.inj (haddr.symm.trans haddr')
  obtain rfl : payload = payload' := Slot.val.inj (hpayload.symm.trans hpayload')
  exact ⟨hlen, hlt, rfl⟩

/-- Settles O58. The hunt ends at the frame, which begins with the start byte; the decode from there gives the frame's
fields. -/
theorem receiveFindsTheFrame : Obligations.ReceiveFindsTheFrame := by
  intro e d s noise tail payload f ct addr henc hf hct haddr hpayload hcfg hidle hfit hnoise
  obtain ⟨hlen, hlt, hout⟩ := exec_frmEnc_next e d ct addr payload henc hct haddr hpayload
  obtain rfl : f = frameBytes s.cfg ct addr payload.length payload := by
    rw [hcfg]
    exact Option.some.inj (hf.symm.trans hout)
  have hhunt := frmHunt_noise s.cfg noise (frameBytes s.cfg ct addr payload.length payload ++ tail) rfl hfit hnoise
  obtain ⟨t, hrecv, hrsp⟩ := frmRecv_of_hunt s _ noise.length hidle hhunt
  obtain ⟨g, hdec, hgct, hgaddr, hgpayload⟩ := frmDec_frameBytes s.cfg ct addr payload tail hlt hlen
  rw [List.drop_left, hdec] at hrsp
  refine ⟨t, g, by rwa [List.append_assoc], ?_, ?_, hgct, hgaddr, hgpayload, ?_⟩ <;> simp [hrsp]

/-- The operation that encodes a value of the type (R21): its tag, width and, for a FixedPoint, the host's S. -/
def ValueType.encoder (t : ValueType) (sg : Signedness) : Instr :=
  match t with
  | .unsignedInt w => .valEncU w
  | .signedInt w => .valEncS w
  | .fixedPoint w _ => .valEncFx sg w
  | .bitField w _ => .valEncBf w
  | .raw _ => .valEncRaw

theorem fetch_encodeRequest (t : ValueType) (sg : Signedness) (v : Value) :
    fetch (encodeRequest t sg v) = .ok (ValueType.encoder t sg) := by
  cases t <;> exact (fetch_ok_iff _ _).mpr ⟨_, rfl, decodeOpc_encode _⟩

/-- The answers of a value encoder: an error's bare response, or OK with bytes that fit a frame's payload. -/
def encodedOrFailed (rsp : Response) : Prop :=
  (∃ e, e ≠ .ok ∧ rsp = raiseError e) ∨ ∃ out : Bytes, out.length ≤ 255 ∧ rsp = { status := some .ok, out := some out }

/-- The bytes of a width fit a payload. -/
theorem toBe_fits (w : Width) (u : Nat) : (toBe w.bytes u).length ≤ 255 := by
  rw [toBe_length]
  cases w <;> decide

theorem encodeInteger_encodedOrFailed (sg : Signedness) (w : Width) (v : Int) :
    encodedOrFailed (encodeInteger sg w v) := by
  cases sg with
  | unsigned =>
    obtain ⟨-, -, h⟩ | ⟨-, h⟩ := encodeUnsigned_cases w v
    · exact .inr ⟨_, toBe_fits w _, h⟩
    · exact .inl ⟨_, by decide, h⟩
  | signed =>
    obtain ⟨-, -, h⟩ | ⟨-, h⟩ := encodeSigned_cases w v
    · exact .inr ⟨_, toBe_fits w _, h⟩
    · exact .inl ⟨_, by decide, h⟩

theorem encodeBits_encodedOrFailed (w : Width) (names : List LabelName) (labels : List Label) :
    encodedOrFailed (encodeBits w names labels) := by
  unfold encodeBits
  split
  · exact .inr ⟨_, toBe_fits w _, rfl⟩
  · exact .inl ⟨_, by decide, rfl⟩

theorem passRaw_encodedOrFailed (b : Bytes) (n : Nat) (hn : n ≤ 255) : encodedOrFailed (passRaw b n) := by
  obtain ⟨hlen, h⟩ | ⟨-, h⟩ := lengthChecked_cases n b { status := some .ok, out := some b }
  · exact .inr ⟨b, by omega, h⟩
  · exact .inl ⟨_, by decide, h⟩

/-- R92, R94, R107, R115, R122: every value encoder answers so. -/
theorem response_encoder (cfg : Config) (t : ValueType) (sg : Signedness) (req : Request) (rsp : Response)
    (h : response cfg (ValueType.encoder t sg) req = .ok rsp) : encodedOrFailed rsp := by
  cases t <;> obtain ⟨operands, hread, rfl⟩ := (map_ok_iff _ _ _).mp h
  case unsignedInt w => exact encodeInteger_encodedOrFailed .unsigned w operands
  case signedInt w => exact encodeInteger_encodedOrFailed .signed w operands
  case fixedPoint w _ => exact encodeInteger_encodedOrFailed sg w _
  case bitField w _ => exact encodeBits_encodedOrFailed w _ _
  case raw _ =>
    obtain ⟨-, -, -, hn⟩ := (readEncRaw_ok_iff req operands.1 operands.2).mp hread
    exact passRaw_encodedOrFailed _ _ hn

/-- Settles O59. The value encoder failed, or it gave bytes that fit a payload, and then FRM.ENC builds their frame. -/
theorem putFramesTheEncodedValue : Obligations.PutFramesTheEncodedValue := by
  intro s u t sg v ct addr hidle haddr henc
  obtain ⟨huidle, hucfg⟩ := perform_next _ _ _ henc
  obtain ⟨i, rsp, hi, hr, hu⟩ := (perform_next_iff _ _ _ hidle).mp henc
  obtain rfl : ValueType.encoder t sg = i := Except.ok.inj ((fetch_encodeRequest t sg v).symm.trans hi)
  have hursp : u.rsp = rsp := by rw [hu]
  obtain ⟨e, he, rfl⟩ | ⟨out, hlen, rfl⟩ := response_encoder _ _ _ _ _ hr
  · have hfail : u.rsp.status ≠ some .ok := by simpa [hursp] using he
    exact ⟨fun _ => ⟨frmPut_of_encode_failed henc hfail, by rw [hursp]; rfl⟩, fun hok => absurd hok hfail⟩
  · have hok : u.rsp.status = some .ok := by rw [hursp]
    have hout : u.rsp.out = some out := by rw [hursp]
    have hput := (frmPut_of_encode_ok henc hok hout).trans (perform_frmEnc u ct addr out huidle hlen haddr)
    rw [hucfg] at hput
    exact ⟨fun hfail => absurd hok hfail, fun _ => ⟨_, out, hout, hlen, hput, rfl, rfl⟩⟩

end Sys2Proof.Machine
end

section
/-! PROOFS. What the frame operations answer to their operands (40_frame.md R72, R73, R75, R85), one lemma per operation and
per check of FRM.DEC. -/

namespace Sys2Proof.Machine

/-- An operation whose only operand is `in` answers what its function gives for those bytes. -/
theorem exec_of_input {i : Instr} {s : State} {b : Bytes} {f : Bytes → Response}
    (hi : response s.cfg i s.req = (readInput s.req).map f) (hb : s.req.input = .val b) :
    exec i s = .next (s.respond (f b)) := by
  have hread : readInput s.req = .ok b := (readInput_ok_iff _ _).mpr hb
  exact (exec_next_iff _ _ _).mpr ⟨f b, by rw [hi, hread]; rfl, rfl⟩

theorem exec_frmCsum (s : State) (b : Bytes) (hb : s.req.input = .val b) :
    exec .frmCsum s = .next (s.respond (frmCsum b)) :=
  exec_of_input (i := .frmCsum) rfl hb

theorem exec_frmDec (s : State) (b : Bytes) (hb : s.req.input = .val b) :
    exec .frmDec s = .next (s.respond (frmDec s.cfg b)) :=
  exec_of_input (i := .frmDec) rfl hb

theorem exec_frmHunt (s : State) (b : Bytes) (hb : s.req.input = .val b) :
    exec .frmHunt s = .next (s.respond (frmHunt s.cfg b)) :=
  exec_of_input (i := .frmHunt) rfl hb

/-- FRM.ENC answers exactly where its operands can be read, and then with their frame. -/
theorem exec_frmEnc_next_iff (e d : State) :
    exec .frmEnc e = .next d ↔
      ∃ ct addr len payload, readFrmEnc e.req = .ok (ct, addr, len, payload) ∧
        d = e.respond (frmEnc e.cfg ct addr len payload) := by
  rw [exec_next_iff]
  constructor
  · rintro ⟨rsp, hr, rfl⟩
    obtain ⟨⟨ct, addr, len, payload⟩, hread, rfl⟩ := (map_ok_iff _ _ _).mp hr
    exact ⟨ct, addr, len, payload, hread, rfl⟩
  · rintro ⟨ct, addr, len, payload, hread, rfl⟩
    exact ⟨_, (map_ok_iff _ _ _).mpr ⟨_, hread, rfl⟩, rfl⟩

/-- The bytes FRM.ENC gives are the frame of its request, whose payload fits the length byte (R65 item 6, R73). -/
theorem frame_of_exec_frmEnc {e d : State} {f : Bytes} (h : exec .frmEnc e = .next d) (hf : d.rsp.out = some f) :
    ∃ ct addr payload, e.req.len = .val payload.length ∧ e.req.payload = .val payload ∧ payload.length ≤ 255 ∧
      f = frameBytes e.cfg ct addr payload.length payload := by
  obtain ⟨ct, addr, len, payload, hread, rfl⟩ := (exec_frmEnc_next_iff e d).mp h
  obtain ⟨-, -, hlen, hpayload, rfl, hfit, -⟩ := (readFrmEnc_ok_iff _ _ _ _ _).mp hread
  exact ⟨ct, addr, payload, hlen, hpayload, hfit, (Option.some.inj hf).symm⟩

/-! FRM.DEC, check by check (R75, R79): each case of `frmDec_cases` from what its checks find. -/

/-- The bytes begin with as many bytes as their length byte asks for, and the checksum is that of the bytes before it: what
FRM.DEC asks before it looks at the command type (R75). -/
def beginsWithFrame (b : Bytes) : Prop :=
  7 + (byteAt b 5).toNat ≤ b.length ∧ byteAt b (6 + (byteAt b 5).toNat) = csum (b.take (6 + (byteAt b 5).toNat))

theorem frmDec_of_short (cfg : Config) (b : Bytes) (h : b.length < 7 + (byteAt b 5).toNat) :
    frmDec cfg b = raiseError .truncated := by
  obtain ⟨-, e⟩ | ⟨hle, -⟩ | ⟨hle, -⟩ | ⟨hle, -⟩ := frmDec_cases cfg b
  · exact e
  all_goals omega

theorem frmDec_of_checksum_ne (cfg : Config) (b : Bytes) (hle : 7 + (byteAt b 5).toNat ≤ b.length)
    (hc : byteAt b (6 + (byteAt b 5).toNat) ≠ csum (b.take (6 + (byteAt b 5).toNat))) :
    frmDec cfg b = raiseError .badChecksum := by
  obtain ⟨hlt, -⟩ | ⟨-, -, e⟩ | ⟨-, heq, -⟩ | ⟨-, heq, -⟩ := frmDec_cases cfg b
  · omega
  · exact e
  · exact absurd heq hc
  · exact absurd heq hc

theorem frmDec_of_code_ne (cfg : Config) (b : Bytes) (hb : beginsWithFrame b) (hct : ∀ ct, byteAt b 2 ≠ cfg.code ct) :
    frmDec cfg b = raiseError .unknownCommandType := by
  obtain ⟨hle, hc⟩ := hb
  obtain ⟨hlt, -⟩ | ⟨-, hne, -⟩ | ⟨-, -, -, e⟩ | ⟨-, -, ct, hsome, -⟩ := frmDec_cases cfg b
  · omega
  · exact absurd hc hne
  · exact e
  · exact absurd (cfg.code_of_ctOf _ _ hsome).symm (hct ct)

theorem frmDec_of_code_eq (cfg : Config) (b : Bytes) (ct : CommandType) (hb : beginsWithFrame b)
    (hct : byteAt b 2 = cfg.code ct) :
    frmDec cfg b = { status := some .ok, frame := some (parsedFrame b ct),
                     consumed := some (7 + (byteAt b 5).toNat) } := by
  obtain ⟨hle, hc⟩ := hb
  have hof : cfg.ctOf (byteAt b 2) = some ct := (cfg.ctOf_eq_some_iff _ _).mpr hct.symm
  obtain ⟨hlt, -⟩ | ⟨-, hne, -⟩ | ⟨-, -, hnone, -⟩ | ⟨-, -, ct', hsome, e⟩ := frmDec_cases cfg b
  · omega
  · exact absurd hc hne
  · rw [hof] at hnone
    cases hnone
  · obtain rfl : ct = ct' := Option.some.inj (hof.symm.trans hsome)
    exact e

/-- FRM.DEC ends OK only on a frame of a recognised command type. -/
theorem frmDec_status_ok (cfg : Config) (b : Bytes) (h : (frmDec cfg b).status = some .ok) :
    beginsWithFrame b ∧ ∃ ct, cfg.code ct = byteAt b 2 ∧
      frmDec cfg b = { status := some .ok, frame := some (parsedFrame b ct),
                       consumed := some (7 + (byteAt b 5).toNat) } := by
  obtain ⟨-, e⟩ | ⟨-, -, e⟩ | ⟨-, -, -, e⟩ | ⟨hle, hc, ct, hsome, e⟩ := frmDec_cases cfg b
  · simp [e] at h
  · simp [e] at h
  · simp [e] at h
  · exact ⟨⟨hle, hc⟩, ct, cfg.code_of_ctOf _ _ hsome, e⟩

end Sys2Proof.Machine
end

section
/-! PROOFS. Encoding a frame and decoding it (40_frame.md R73, R74, R81). -/

namespace Sys2Proof.Machine

/-- A length of at most 255 is what its byte holds. -/
theorem lengthByte_toNat (n : Nat) (h : n ≤ 255) : (BitVec.ofNat 8 n).toNat = n := by
  simp only [BitVec.toNat_ofNat]
  omega

/-- FRM.DEC on an encoded frame, field by field, whatever follows the frame (R78, R81). -/
theorem frmDec_frameBytes_append (cfg : Config) (ct : CommandType) (addr : Nat) (payload tail : Bytes)
    (haddr : addr < 2 ^ 16) (hlen : payload.length ≤ 255) :
    frmDec cfg (frameBytes cfg ct addr payload.length payload ++ tail) =
      { status := some .ok
        frame := some {
          startByte := cfg.startByte
          protocolByte := cfg.protocolByte
          commandType := ct
          address := addr
          length := payload.length
          payload := payload
          checksum := csum (frameHeader cfg ct addr payload.length ++ payload) }
        consumed := some (7 + payload.length) } := by
  have hbyte := lengthByte_toNat payload.length hlen
  rw [frameBytes_eq, frmDec_anyFrame cfg _ _ _ _ _ _ payload tail ct hbyte.symm rfl, address_of_bytes addr haddr, hbyte]
  rfl

/-- Settles O17. The request is well-formed, so FRM.ENC gives its frame, and FRM.DEC reads that frame back field by field. -/
theorem frameRoundTrip : Obligations.FrameRoundTrip := by
  intro s ct addr len payload hct haddr hlen hpayload hwf
  obtain ⟨rfl, hfit, hlt⟩ : len = payload.length ∧ payload.length ≤ 255 ∧ addr < 2 ^ 16 := by
    simpa [Request.wellFormed, frmEncWellFormed, hct, haddr, hlen, hpayload, and_assoc] using hwf
  have hread := (readFrmEnc_ok_iff _ _ _ _ _).mpr ⟨hct, haddr, hlen, hpayload, rfl, hfit, hlt⟩
  refine ⟨_, _, (exec_frmEnc_next_iff _ _).mpr ⟨_, _, _, _, hread, rfl⟩, rfl, fun u tail hcfg hin => ?_⟩
  have hdec := exec_frmDec u _ hin
  rw [hcfg, frmDec_frameBytes_append s.cfg ct addr payload tail hlt hfit] at hdec
  exact ⟨_, _, hdec, rfl, rfl, rfl, rfl, rfl, rfl, rfl, rfl, by simp⟩

/-- Settles O10. FRM.ENC reads exactly the well-formed requests, and the checksum is the byte total modulo 256. -/
theorem frmEncResult : Obligations.FrmEncResult := by
  refine ⟨by decide, fun s ct addr len payload hct haddr hlen hpayload hl hfit hlt => ?_, fun s h => ?_⟩
  · have hread := (readFrmEnc_ok_iff _ _ _ _ _).mpr ⟨hct, haddr, hlen, hpayload, hl, hfit, hlt⟩
    refine ⟨_, rfl, ?_⟩
    rw [(exec_frmEnc_next_iff _ _).mpr ⟨_, _, _, _, hread, rfl⟩, ← csum_eq_byteTotal]
    rfl
  · obtain ⟨hnext, hrefused, -⟩ := answersExactlyWellFormedRequests .frmEnc s
    refine hrefused (Bool.eq_false_iff.mpr fun hwf => ?_)
    obtain ⟨t, ht⟩ := hnext hwf
    obtain ⟨ct, addr, len, payload, hread, -⟩ := (exec_frmEnc_next_iff s t).mp ht
    obtain ⟨hct, haddr, hlen, hpayload, hbounds⟩ := (readFrmEnc_ok_iff _ _ _ _ _).mp hread
    exact h ct addr len payload hct haddr hlen hpayload hbounds

theorem byteAt_five_frameBytes (cfg : Config) (ct : CommandType) (addr : Nat) (payload : Bytes)
    (h : payload.length ≤ 255) : (byteAt (frameBytes cfg ct addr payload.length payload) 5).toNat = payload.length :=
  lengthByte_toNat payload.length h

/-- The checksum of an encoded frame stands after the payload and is that of all the bytes before it (R50, R74). -/
theorem frameBytes_beginsWithFrame (cfg : Config) (ct : CommandType) (addr : Nat) (payload : Bytes)
    (h : payload.length ≤ 255) : beginsWithFrame (frameBytes cfg ct addr payload.length payload) := by
  have hbody : (frameHeader cfg ct addr payload.length ++ payload).length = 6 + payload.length := by
    simp [frameHeader]
    omega
  have hc := byteAt_checksum (frameHeader cfg ct addr payload.length ++ payload) []
    (csum (frameHeader cfg ct addr payload.length ++ payload))
  rw [beginsWithFrame, byteAt_five_frameBytes cfg ct addr payload h, ← hbody, frameBytes_length]
  refine ⟨le_rfl, ?_⟩
  rw [frameBytes, List.take_left]
  simpa using hc

/-- Settles O11. The first bytes are the header's; the rest is `frameBytes_beginsWithFrame`. -/
theorem encodedFrameProperties : Obligations.EncodedFrameProperties := by
  intro s t len f h hlen hf
  obtain ⟨ct, addr, payload, hlen', -, hfit, rfl⟩ := frame_of_exec_frmEnc h hf
  obtain rfl : len = payload.length := Slot.val.inj (hlen.symm.trans hlen')
  have hsize := frameBytes_length s.cfg ct addr payload.length payload
  have hbyte := byteAt_five_frameBytes s.cfg ct addr payload hfit
  obtain ⟨hle, hc⟩ := frameBytes_beginsWithFrame s.cfg ct addr payload hfit
  refine ⟨hsize, rfl, rfl, rfl, by omega, ?_, by omega, hle, ?_, ct, rfl⟩
  · rw [hbyte, byteAt_eq_getElem _ _ (by omega)] at hc
    rw [List.getElem?_eq_getElem (by omega), hc]
  · rw [byteTotal_eq, ← csum_toNat]
    exact congrArg BitVec.toNat hc

end Sys2Proof.Machine
end

section
/-! PROOFS. FRM.DEC on every input, and on changed ones (40_frame.md R75 to R79, R82). -/

namespace Sys2Proof.Machine

/-- Settles O12. One lemma per check; a header that is too short is also shorter than its frame would be. -/
theorem frmDecResult : Obligations.FrmDecResult := by
  refine ⟨by decide, fun s b hb => ?_⟩
  rw [exec_frmDec s b hb]
  refine ⟨fun hlt => ?_, fun _ hlt => ?_, fun _ hle hc => ?_, fun _ hle hc hct => ?_, fun ct _ hle hc hct => ?_⟩
  · rw [frmDec_of_short s.cfg b (by omega)]
    rfl
  · rw [frmDec_of_short s.cfg b hlt]
    rfl
  · rw [frmDec_of_checksum_ne s.cfg b hle hc]
    rfl
  · rw [frmDec_of_code_ne s.cfg b ⟨hle, hc⟩ hct]
    rfl
  · rw [frmDec_of_code_eq s.cfg b ct ⟨hle, hc⟩ hct]
    rfl

/-- FRM.DEC's answer in a state where it ended OK (R75). -/
theorem exec_frmDec_ok {s t : State} {b : Bytes} (hb : s.req.input = .val b) (h : exec .frmDec s = .next t)
    (hok : t.rsp.status = some .ok) :
    beginsWithFrame b ∧ ∃ ct, s.cfg.code ct = byteAt b 2 ∧ t.rsp.frame = some (parsedFrame b ct) := by
  rw [exec_frmDec s b hb] at h
  obtain rfl := Host.Outcome.next.inj h
  obtain ⟨hframe, ct, hct, hdec⟩ := frmDec_status_ok s.cfg b hok
  exact ⟨hframe, ct, hct, by rw [respond_rsp, hdec]⟩

/-- Settles O13. -/
theorem decodedFrameInvariants : Obligations.DecodedFrameInvariants := by
  intro s t b hb h hok
  obtain ⟨⟨hle, hc⟩, ct, hct, hframe⟩ := exec_frmDec_ok hb h hok
  obtain ⟨haddr, hlen, hlt, hsum⟩ := parsedFrame_wf s.cfg b ct hle hc hct
  exact ⟨_, hframe, hc, hlen, hsum, haddr, hlt⟩

theorem byteAt_set_self (b : Bytes) (j : Nat) (x : Byte) (h : j < b.length) : byteAt (b.set j x) j = x := by
  simp [byteAt, h]

theorem byteAt_set_ne (b : Bytes) (i j : Nat) (x : Byte) (h : j ≠ i) : byteAt (b.set j x) i = byteAt b i := by
  simp [byteAt, List.getElem?_set_ne h]

/-- One changed byte of a frame, other than its length byte, makes the checksum wrong (R77, R82): it is the checksum itself,
or one of the bytes that it sums. -/
theorem frmDec_set_badChecksum (cfg : Config) (b : Bytes) (j : Nat) (x : Byte) (hb : beginsWithFrame b)
    (hj : j < 7 + (byteAt b 5).toNat) (h5 : j ≠ 5) (hx : byteAt b j ≠ x) :
    frmDec cfg (b.set j x) = raiseError .badChecksum := by
  obtain ⟨hle, hc⟩ := hb
  have hlen : byteAt (b.set j x) 5 = byteAt b 5 := byteAt_set_ne b 5 j x h5
  apply frmDec_of_checksum_ne <;> rw [hlen]
  · rwa [List.length_set]
  rcases Nat.lt_succ_iff_lt_or_eq.mp (show j < 6 + (byteAt b 5).toNat + 1 by omega) with hlt | rfl
  · have hlt' : j < (b.take (6 + (byteAt b 5).toNat)).length := by
      rw [List.length_take]
      omega
    rw [byteAt_set_ne _ _ _ _ hlt.ne, hc, List.take_set]
    refine (csum_set_ne _ j x hlt' ?_).symm
    rwa [List.getElem_take, ← byteAt_eq_getElem b j (by omega), ne_comm]
  · rw [byteAt_set_self _ _ _ (by omega), List.take_set_of_le le_rfl, ← hc]
    exact hx.symm

/-- Settles O14. The first two bytes are free in `frmDec_anyFrame`; they are among the bytes that the checksum sums. -/
theorem startAndProtocolBytesAreNotChecked : Obligations.StartAndProtocolBytesAreNotChecked := by
  constructor
  · intro s x y ct hi lo len payload hlen hin
    have hdec := frmDec_anyFrame s.cfg x y (s.cfg.code ct) hi lo len payload [] ct hlen rfl
    rw [List.append_nil] at hdec
    have hexec := exec_frmDec s (anyFrame x y (s.cfg.code ct) hi lo len payload) hin
    rw [hdec] at hexec
    exact ⟨_, _, hexec, rfl, rfl, rfl, rfl⟩
  · intro s t s' b j x hb h hok hj hx hb'
    obtain ⟨hframe, -⟩ := exec_frmDec_ok hb h hok
    refine ⟨_, exec_frmDec s' _ hb', ?_⟩
    rw [respond_rsp, frmDec_set_badChecksum s'.cfg b j x hframe (by omega) (by omega) hx]
    rfl

/-- Settles O15. -/
theorem surplusBytesAreIgnored : Obligations.SurplusBytesAreIgnored := by
  intro s s' b tail hcfg hb hb' h6 hlen
  refine ⟨_, _, exec_frmDec s b hb, exec_frmDec s' _ hb', ?_, fun hok => ?_⟩
  · rw [respond_rsp, respond_rsp, hcfg]
    exact frmDec_append s.cfg b tail h6 hlen.ge
  · obtain ⟨-, ct, -, hdec⟩ := frmDec_status_ok s.cfg b hok
    rw [respond_rsp, hdec, hlen]
    rfl

/-! An encoded frame whose length byte is replaced by `x`: FRM.DEC takes `x` for the length and looks for the checksum at
index `6 + x` (R82). -/

section
variable (cfg : Config) (ct : CommandType) (addr len : Nat) (payload : Bytes) (x : Byte)

theorem byteAt_five_relengthed : byteAt ((frameBytes cfg ct addr len payload).set 5 x) 5 = x := rfl

theorem byteAt_two_relengthed : byteAt ((frameBytes cfg ct addr len payload).set 5 x) 2 = cfg.code ct := rfl

/-- The payload still stands from index 6 on. -/
theorem drop_six_relengthed :
    ((frameBytes cfg ct addr len payload).set 5 x).drop 6 =
      payload ++ [csum (frameHeader cfg ct addr len ++ payload)] := rfl

theorem byteAt_payload_relengthed (k : Nat) (h : k < payload.length) :
    byteAt ((frameBytes cfg ct addr len payload).set 5 x) (6 + k) = payload.getD k 0 := by
  rw [byteAt, List.getD_eq_getElem?_getD, ← List.getElem?_drop, drop_six_relengthed, List.getElem?_append_left h,
    List.getD_eq_getElem?_getD]

theorem parsedFrame_payload_relengthed (ct' : CommandType) (h : x.toNat ≤ payload.length) :
    (parsedFrame ((frameBytes cfg ct addr len payload).set 5 x) ct').payload = payload.take x.toNat := by
  simp only [parsedFrame, byteAt_five_relengthed, drop_six_relengthed]
  exact List.take_append_of_le_length h

end

/-- Settles O18. Off the length byte the checksum goes wrong. A larger length byte asks for more bytes than there are; a
smaller one makes FRM.DEC take the payload byte at its index for the checksum. -/
theorem singleByteCorruption : Obligations.SingleByteCorruption := by
  refine ⟨fun e d s payload f j x henc hf hpayload hcfg hj hx hin => ⟨_, exec_frmDec s _ hin, ?_⟩, by decide⟩
  obtain ⟨ct, addr, payload', -, hpayload', hfit, rfl⟩ := frame_of_exec_frmEnc henc hf
  obtain rfl : payload = payload' := Slot.val.inj (hpayload.symm.trans hpayload')
  rw [respond_rsp, hcfg]
  have hsize := frameBytes_length e.cfg ct addr payload.length payload
  refine ⟨fun h5 => ?notLength, ?longer, ?shorter, ?decodes⟩
  case notLength =>
    have hbyte := byteAt_five_frameBytes e.cfg ct addr payload hfit
    have hframe := frameBytes_beginsWithFrame e.cfg ct addr payload hfit
    rw [frmDec_set_badChecksum e.cfg _ j x hframe (by omega) h5 hx, raiseError_status]
  case longer =>
    rintro rfl hlong
    rw [frmDec_of_short, raiseError_status]
    rw [byteAt_five_relengthed, List.length_set]
    omega
  case shorter =>
    rintro rfl hshort hne
    rw [frmDec_of_checksum_ne, raiseError_status] <;> rw [byteAt_five_relengthed]
    · rw [List.length_set]
      omega
    · rwa [byteAt_payload_relengthed _ _ _ _ _ _ _ hshort]
  case decodes =>
    rintro rfl hshort heq
    have hframe : beginsWithFrame ((frameBytes e.cfg ct addr payload.length payload).set 5 x) := by
      rw [beginsWithFrame, byteAt_five_relengthed, List.length_set, byteAt_payload_relengthed _ _ _ _ _ _ _ hshort]
      exact ⟨by omega, heq⟩
    rw [frmDec_of_code_eq e.cfg _ ct hframe (byteAt_two_relengthed ..)]
    exact ⟨_, rfl, rfl, rfl, parsedFrame_payload_relengthed _ _ _ _ _ _ _ hshort.le⟩

end Sys2Proof.Machine
end

section
/-! PROOFS. The checksum and the hunt (40_frame.md R71, R72, R83, R85). -/

namespace Sys2Proof.Machine

/-- Settles O8. -/
theorem frmCsumResult : Obligations.FrmCsumResult := by
  refine ⟨by decide, fun b => ?_, rfl, fun s b hb => ?_, by decide⟩
  · rw [csum_toNat, byteTotal_eq]
  · rw [exec_frmCsum s b hb, ← csum_eq_byteTotal]
    rfl

/-- Two changed bytes whose differences sum to a multiple of 256 cancel in the checksum (R83). -/
theorem csum_set_set (b : Bytes) (i j : Nat) (x y : Byte) (hi : i < b.length) (hj : j < b.length) (hij : i ≠ j)
    (h : (256 : Int) ∣ ((x.toNat : Int) - b[i].toNat) + ((y.toNat : Int) - b[j].toNat)) :
    csum ((b.set i x).set j y) = csum b := by
  have hfirst := sumBytes_set b i x hi
  have hsecond := sumBytes_set (b.set i x) j y (by rwa [List.length_set])
  rw [List.getElem_set_ne hij] at hsecond
  rw [csum_eq_iff]
  omega

/-- Settles O19. -/
theorem whatTheChecksumMisses : Obligations.WhatTheChecksumMisses := by
  refine ⟨fun a b h => ?_, fun b i j x y hi hj hij h => ?_, by decide⟩
  · rw [csum, csum, sumBytes_perm h]
  · refine csum_set_set b i j x y hi hj hij ?_
    rwa [List.getD_eq_getElem b 0 hi, List.getD_eq_getElem b 0 hj] at h

/-- Settles O20. The scan finds the first start byte in the window, or there is none. -/
theorem frmHuntResult : Obligations.FrmHuntResult := by
  refine ⟨by decide, fun s b hb => ?_⟩
  rw [exec_frmHunt s b hb]
  refine ⟨fun k hk hat hfirst => ?_, fun h => ?_⟩
  · rw [frmHunt, (huntFrom_some_iff _ _ _ _).mpr ⟨hk, hat, hfirst⟩]
    rfl
  · rw [frmHunt, (huntFrom_none_iff _ _ _).mpr h]
    rfl

end Sys2Proof.Machine
end

section
/-! PROOFS. The integer values: which bytes hold a value of a width and signedness, and which value they hold
(00_scope.md R13; 41_value_int.md R91 to R96). In range, the bytes are those of the value modulo `2^(8w)` for both
signednesses. -/

namespace Sys2Proof.Machine

theorem beNat_lt_two_pow {n : Nat} {b : Bytes} (hb : b.length = n) : beNat b < 2 ^ (8 * n) := by
  rw [← pow256, ← hb]
  exact beNat_lt b

/-- The value that `w` bytes hold is in the range of its width (R91, R93). -/
theorem underlying_inWidthRange (sg : Signedness) (w : Width) (b : Bytes) (hb : b.length = w.bytes) :
    inWidthRange sg w.bytes (underlying sg w b) := by
  cases sg with
  | unsigned =>
    have hlt : (beNat b : Int) < 2 ^ (8 * w.bytes) := by exact_mod_cast beNat_lt_two_pow hb
    exact ⟨Int.natCast_nonneg _, hlt⟩
  | signed => exact sext_range _ _ (Width.bytes_pos w) (beNat_lt_two_pow hb)

theorem natCast_twos (n : Nat) (v : Int) : (twos n v : Int) = v % 2 ^ (8 * n) :=
  Int.toNat_of_nonneg (Int.emod_nonneg v (by positivity))

/-- A value of the unsigned range is its own remainder (R92). -/
theorem twos_of_nonneg (n : Nat) (v : Int) (h0 : 0 ≤ v) (hlt : v < 2 ^ (8 * n)) : twos n v = v.toNat := by
  rw [twos, Int.emod_eq_of_lt h0 hlt]

/-- The bytes that an integer encode gives read as the value modulo `2^(8w)`. -/
theorem beNat_toBe_twos (n : Nat) (v : Int) : beNat (toBe n (twos n v)) = twos n v :=
  beNat_toBe n _ (by rw [pow256]; exact twos_lt n v)

theorem beSum_toBe_twos (n : Nat) (v : Int) : (beSum (toBe n (twos n v)) : Int) = v % 2 ^ (8 * n) := by
  rw [beSum_eq, beNat_toBe_twos, natCast_twos]

/-- Decoding the bytes of a value in range gives the value (R96). -/
theorem underlying_toBe_twos (sg : Signedness) (w : Width) (v : Int) (h : inWidthRange sg w.bytes v) :
    underlying sg w (toBe w.bytes (twos w.bytes v)) = v := by
  cases sg with
  | unsigned => rw [underlying, beNat_toBe_twos, natCast_twos, Int.emod_eq_of_lt h.1 h.2]
  | signed => rw [underlying, beNat_toBe_twos, sext_twos _ _ (Width.bytes_pos w) h.1 h.2]

/-- Encoding the value of `w` bytes gives the bytes (R96). -/
theorem toBe_twos_underlying (sg : Signedness) (w : Width) (b : Bytes) (hb : b.length = w.bytes) :
    toBe w.bytes (twos w.bytes (underlying sg w b)) = b := by
  have htwos : twos w.bytes (underlying sg w b) = beNat b := by
    cases sg with
    | unsigned =>
      obtain ⟨hlo, hhi⟩ := underlying_inWidthRange .unsigned w b hb
      exact twos_of_nonneg _ _ hlo hhi
    | signed => exact twos_sext _ _ (beNat_lt_two_pow hb)
  rw [htwos, ← hb, toBe_beNat]

/-- An integer encode gives the bytes of exactly the values in range (R92, R94). -/
theorem encodeInteger_range_cases (sg : Signedness) (w : Width) (v : Int) :
    (inWidthRange sg w.bytes v ∧
      encodeInteger sg w v = { status := some .ok, out := some (toBe w.bytes (twos w.bytes v)) }) ∨
    (¬ inWidthRange sg w.bytes v ∧ encodeInteger sg w v = raiseError .unrepresentable) := by
  cases sg with
  | unsigned =>
    rcases encodeUnsigned_cases w v with ⟨hlo, hhi, he⟩ | ⟨hout, he⟩
    · rw [twos_of_nonneg _ _ hlo hhi]
      exact .inl ⟨⟨hlo, hhi⟩, he⟩
    · exact .inr ⟨fun ⟨hlo, hhi⟩ => by omega, he⟩
  | signed =>
    rcases encodeSigned_cases w v with ⟨hlo, hhi, he⟩ | ⟨hout, he⟩
    · exact .inl ⟨⟨hlo, hhi⟩, he⟩
    · exact .inr ⟨fun ⟨hlo, hhi⟩ => by omega, he⟩

theorem encodeInteger_of_inWidthRange {sg : Signedness} {w : Width} {v : Int} (h : inWidthRange sg w.bytes v) :
    encodeInteger sg w v = { status := some .ok, out := some (toBe w.bytes (twos w.bytes v)) } :=
  (encodeInteger_range_cases sg w v).elim And.right fun hout => absurd h hout.1

theorem encodeInteger_of_not_inWidthRange {sg : Signedness} {w : Width} {v : Int} (h : ¬ inWidthRange sg w.bytes v) :
    encodeInteger sg w v = raiseError .unrepresentable :=
  (encodeInteger_range_cases sg w v).elim (fun hin => absurd hin.1 h) And.right

theorem decodeInteger_of_length {sg : Signedness} {w : Width} {b : Bytes} (hb : b.length = w.bytes) :
    decodeInteger sg w b = { status := some .ok, ival := some (underlying sg w b) } :=
  lengthChecked_eq _ _ _ hb

/-- A decode that gives a value read `w` bytes, and the value is the one they hold (R90). -/
theorem decodeInteger_ival_some {sg : Signedness} {w : Width} {b : Bytes} {v : Int}
    (h : (decodeInteger sg w b).ival = some v) : b.length = w.bytes ∧ underlying sg w b = v := by
  rcases lengthChecked_cases w.bytes b { status := some .ok, ival := some (underlying sg w b) } with
    ⟨hb, heq⟩ | ⟨-, heq⟩ <;> rw [decodeInteger, heq] at h
  · exact ⟨hb, Option.some.inj h⟩
  · cases h

end Sys2Proof.Machine
end

section
/-! PROOFS. The integer operations (41_value_int.md R91 to R97). One lemma says what the decodes answer and one what the
encodes answer, for both signednesses. -/

namespace Sys2Proof.Machine

theorem exec_intDecode (sg : Signedness) (w : Width) (s : State) (b : Bytes) (hb : s.req.input = .val b) :
    exec (intDecode sg w) s = .next (s.respond (decodeInteger sg w b)) := by
  cases sg with
  | unsigned => exact exec_of_input (i := .valDecU w) rfl hb
  | signed => exact exec_of_input (i := .valDecS w) rfl hb

theorem exec_intEncode (sg : Signedness) (w : Width) (s : State) (v : Int) (hv : s.req.ival = .val v) :
    exec (intEncode sg w) s = .next (s.respond (encodeInteger sg w v)) := by
  have hread : (readIval s.req).map (encodeInteger sg w) = .ok (encodeInteger sg w v) :=
    (map_ok_iff _ _ _).mpr ⟨v, (readIval_ok_iff _ _).mpr hv, rfl⟩
  cases sg with
  | unsigned => exact (exec_next_iff (.valEncU w) _ _).mpr ⟨_, hread, rfl⟩
  | signed => exact (exec_next_iff (.valEncS w) _ _).mpr ⟨_, hread, rfl⟩

/-- A decode that answers has read its input. -/
theorem input_of_exec_intDecode {sg : Signedness} {w : Width} {s t : State} (h : exec (intDecode sg w) s = .next t) :
    ∃ b, s.req.input = .val b ∧ t = s.respond (decodeInteger sg w b) := by
  obtain ⟨rsp, hr, rfl⟩ := (exec_next_iff _ _ _).mp h
  have hmap : (readInput s.req).map (decodeInteger sg w) = .ok rsp := by cases sg <;> exact hr
  obtain ⟨b, hb, rfl⟩ := (map_ok_iff _ _ _).mp hmap
  exact ⟨b, (readInput_ok_iff _ _).mp hb, rfl⟩

section Decode
variable (sg : Signedness) (w : Width) (s : State) (b : Bytes)

/-- R90: an input of another length than the width. -/
theorem exec_intDecode_mismatch (hb : s.req.input = .val b) (hlen : b.length ≠ w.bytes) :
    exec (intDecode sg w) s = .next (s.respond { status := some .lengthMismatch }) := by
  rw [exec_intDecode sg w s b hb, decodeInteger, lengthChecked_ne _ _ _ hlen]
  rfl

/-- R91, R93: an input of the width's length. -/
theorem exec_intDecode_ok (hb : s.req.input = .val b) (hlen : b.length = w.bytes) :
    exec (intDecode sg w) s =
      .next (s.respond { status := some .ok, ival := some (signedOrUnsigned sg w.bytes (beSum b)) }) := by
  rw [exec_intDecode sg w s b hb, decodeInteger_of_length hlen, signedOrUnsigned_eq]

end Decode

section Encode
variable (sg : Signedness) (w : Width) (s : State) (v : Int)

theorem exec_intEncode_unrepresentable (hv : s.req.ival = .val v) (hrange : ¬ inWidthRange sg w.bytes v) :
    exec (intEncode sg w) s = .next (s.respond { status := some .unrepresentable }) := by
  rw [exec_intEncode sg w s v hv, encodeInteger_of_not_inWidthRange hrange]
  rfl

theorem exec_intEncode_ok (hv : s.req.ival = .val v) (hrange : inWidthRange sg w.bytes v) :
    exec (intEncode sg w) s =
      .next (s.respond { status := some .ok, out := some (toBe w.bytes (twos w.bytes v)) }) := by
  rw [exec_intEncode sg w s v hv, encodeInteger_of_inWidthRange hrange]

end Encode

/-- Settles O25. Both compositions are the identity on bytes and on values in range; the value of `w` bytes is in range,
so the second operation does answer it. -/
theorem integerRoundTrips : Obligations.IntegerRoundTrips := by
  refine fun w sg => ⟨fun s v hv hrange => ?_, fun s b hb hlen => ?_⟩
  · refine ⟨_, _, exec_intEncode_ok sg w s v hv hrange, rfl, fun u hu => ⟨_, exec_intDecode sg w u _ hu, ?_⟩⟩
    show (decodeInteger sg w _).ival = _
    rw [decodeInteger_of_length (toBe_length _ _), underlying_toBe_twos sg w v hrange]
  · refine ⟨_, _, exec_intDecode_ok sg w s b hb hlen, rfl, fun u hu => ?_⟩
    rw [signedOrUnsigned_eq] at hu
    refine ⟨_, exec_intEncode_ok sg w u _ hu (underlying_inWidthRange sg w b hlen), ?_⟩
    exact congrArg some (toBe_twos_underlying sg w b hlen)

/-- R95 for the decodes. -/
theorem inWidthRange_of_exec_intDecode {sg : Signedness} {w : Width} {s t : State} {v : Int}
    (h : exec (intDecode sg w) s = .next t) (hv : t.rsp.ival = some v) : inWidthRange sg w.bytes v := by
  obtain ⟨b, -, rfl⟩ := input_of_exec_intDecode h
  obtain ⟨hlen, rfl⟩ := decodeInteger_ival_some hv
  exact underlying_inWidthRange sg w b hlen

/-- R95 for the encodes: the bytes read back as the value, or there are none. -/
theorem out_of_exec_intEncode {sg : Signedness} {w : Width} {s t : State} {v : Int}
    (hv : s.req.ival = .val v) (h : exec (intEncode sg w) s = .next t) :
    (∃ out, t.rsp.out = some out ∧ out.length = w.bytes ∧ signedOrUnsigned sg w.bytes (beSum out) = v) ∨
      t.rsp = { status := some .unrepresentable } := by
  by_cases hrange : inWidthRange sg w.bytes v
  · cases (exec_intEncode_ok sg w s v hv hrange).symm.trans h
    exact .inl ⟨_, rfl, toBe_length _ _, by rw [signedOrUnsigned_eq, underlying_toBe_twos sg w v hrange]⟩
  · cases (exec_intEncode_unrepresentable sg w s v hv hrange).symm.trans h
    exact .inr rfl

/-- Settles O26. The ranges of the table are those of `inWidthRange` with the powers evaluated. -/
theorem noWrapAround : Obligations.NoWrapAround := by
  refine ⟨fun w s t v => inWidthRange_of_exec_intDecode (sg := .unsigned),
    fun w s t v => inWidthRange_of_exec_intDecode (sg := .signed),
    fun w s t v => out_of_exec_intEncode (sg := .unsigned),
    fun w s t v => out_of_exec_intEncode (sg := .signed), fun v => ?_⟩
  norm_num [inWidthRange]
  omega

/-- Settles O21. -/
theorem valDecUResult : Obligations.ValDecUResult := by
  refine ⟨by decide, fun w s b hb => ⟨exec_intDecode_mismatch .unsigned w s b hb, fun hlen => ?_⟩⟩
  refine ⟨exec_intDecode_ok .unsigned w s b hb hlen, ?_⟩
  rw [beSum_eq]
  exact beNat_lt_two_pow hlen

/-- Settles O23. -/
theorem valDecSResult : Obligations.ValDecSResult := by
  refine ⟨by decide, fun w s b hb => ⟨exec_intDecode_mismatch .signed w s b hb, fun hlen => ?_⟩⟩
  refine ⟨exec_intDecode_ok .signed w s b hb hlen, ?_⟩
  have hrange := underlying_inWidthRange .signed w b hlen
  rwa [← signedOrUnsigned_eq] at hrange

/-- Settles O22. In range, the remainder that the bytes read as is the value itself. -/
theorem valEncUResult : Obligations.ValEncUResult := by
  refine ⟨by decide, fun w s v hv => ⟨fun hout => ?_, fun hlo hhi => ?_⟩⟩
  · exact exec_intEncode_unrepresentable .unsigned w s v hv fun ⟨hlo, hhi⟩ => by omega
  · refine ⟨_, toBe_length _ _, ?_, exec_intEncode_ok .unsigned w s v hv ⟨hlo, hhi⟩⟩
    rw [beSum_toBe_twos, Int.emod_eq_of_lt hlo hhi]

/-- Settles O24. -/
theorem valEncSResult : Obligations.ValEncSResult := by
  refine ⟨by decide, fun w s v hv => ⟨fun hout => ?_, fun hlo hhi => ?_⟩⟩
  · exact exec_intEncode_unrepresentable .signed w s v hv fun ⟨hlo, hhi⟩ => by omega
  · exact ⟨_, toBe_length _ _, beSum_toBe_twos _ _, exec_intEncode_ok .signed w s v hv ⟨hlo, hhi⟩⟩

/-- Settles O27. The two readings of R13 on either side of `2^(8w-1)`. -/
theorem signedAndUnsignedReadings : Obligations.SignedAndUnsignedReadings := by
  refine fun w s b hb hlen => ⟨_, _, _, _, exec_intDecode_ok .unsigned w s b hb hlen, rfl,
    exec_intDecode_ok .signed w s b hb hlen, rfl, fun hlt => ?_, fun hge => ?_⟩
  · have hlt' : (beSum b : Int) < 2 ^ (8 * w.bytes - 1) := hlt
    exact sext_of_lt _ _ (by exact_mod_cast hlt')
  · have hge' : (2 : Int) ^ (8 * w.bytes - 1) ≤ beSum b := hge
    exact sext_of_ge _ _ (by exact_mod_cast hge')

end Sys2Proof.Machine
end

section
/-! PROOFS. What the FixedPoint, BitField and Raw operations answer to their operands
(42_value_fixed_bitfield_raw.md), one lemma per operation. -/

namespace Sys2Proof.Machine

/-- An operation answers exactly where its operands can be read, and then what its function gives for them. -/
theorem exec_next_iff_read {α : Type} {i : Instr} {s : State} {read : Except Refusal α} {f : α → Response}
    (hi : response s.cfg i s.req = read.map f) (t : State) :
    exec i s = .next t ↔ ∃ a, read = .ok a ∧ t = s.respond (f a) := by
  rw [exec_next_iff, hi]
  constructor
  · rintro ⟨rsp, hrsp, rfl⟩
    obtain ⟨a, ha, rfl⟩ := (map_ok_iff _ _ _).mp hrsp
    exact ⟨a, ha, rfl⟩
  · rintro ⟨a, ha, rfl⟩
    exact ⟨f a, (map_ok_iff _ _ _).mpr ⟨a, ha, rfl⟩, rfl⟩

section FixedPoint
variable {sg : Signedness} {w : Width} {s t : State} {b : Bytes} {q : Rat} {scale : Nat}

/-- A decode that answers has read its input. -/
theorem input_of_exec_valDecFx (h : exec (.valDecFx sg w) s = .next t) : ∃ b, s.req.input = .val b := by
  obtain ⟨⟨b, scale⟩, hread, -⟩ := (exec_next_iff_read (i := .valDecFx sg w) rfl t).mp h
  exact ⟨b, ((readDecFx_ok_iff _ _ _ _).mp hread).1⟩

theorem exec_valDecFx_next_iff (hb : s.req.input = .val b) (hscale : s.req.scale = .val scale) :
    exec (.valDecFx sg w) s = .next t ↔
      scaleInRange s.cfg.scaleMax scale = true ∧ t = s.respond (decodeFixed sg w b scale) := by
  rw [exec_next_iff_read (i := .valDecFx sg w) rfl t]
  simp only [Prod.exists, readDecFx_ok_iff, hb, hscale, Slot.val.injEq, and_assoc, exists_and_left, exists_eq_left']

theorem exec_valEncFx_next_iff (hq : s.req.qval = .val q) (hscale : s.req.scale = .val scale) :
    exec (.valEncFx sg w) s = .next t ↔
      scaleInRange s.cfg.scaleMax scale = true ∧ t = s.respond (encodeFixed sg w q scale) := by
  rw [exec_next_iff_read (i := .valEncFx sg w) rfl t]
  simp only [Prod.exists, readEncFx_ok_iff, hq, hscale, Slot.val.injEq, and_assoc, exists_and_left, exists_eq_left']

end FixedPoint

section BitField
variable {w : Width} {s t : State} {b : Bytes} {names : List LabelName} {labels : List Label}

theorem exec_valDecBf_next_iff (hb : s.req.input = .val b) (hlabels : s.req.labels = .val labels) :
    exec (.valDecBf w) s = .next t ↔ labelsInRange w labels = true ∧ t = s.respond (decodeBits w b labels) := by
  rw [exec_next_iff_read (i := .valDecBf w) rfl t]
  simp only [Prod.exists, readDecBf_ok_iff, hb, hlabels, Slot.val.injEq, and_assoc, exists_and_left, exists_eq_left']

theorem exec_valEncBf_next_iff (hnames : s.req.names = .val names) (hlabels : s.req.labels = .val labels) :
    exec (.valEncBf w) s = .next t ↔ labelsInRange w labels = true ∧ t = s.respond (encodeBits w names labels) := by
  rw [exec_next_iff_read (i := .valEncBf w) rfl t]
  simp only [Prod.exists, readEncBf_ok_iff, hnames, hlabels, Slot.val.injEq, and_assoc, exists_and_left,
    exists_eq_left']

end BitField

section Raw
variable {s : State} {b : Bytes} {n : Nat}

theorem exec_valDecRaw (hb : s.req.input = .val b) (hn : s.req.rwidth = .val n) (hlo : 1 ≤ n) (hhi : n ≤ 255) :
    exec .valDecRaw s = .next (s.respond (passRaw b n)) :=
  (exec_next_iff_read (i := .valDecRaw) rfl _).mpr ⟨(b, n), (readDecRaw_ok_iff _ _ _).mpr ⟨hb, hn, hlo, hhi⟩, rfl⟩

theorem exec_valEncRaw (hb : s.req.rawval = .val b) (hn : s.req.rwidth = .val n) (hlo : 1 ≤ n) (hhi : n ≤ 255) :
    exec .valEncRaw s = .next (s.respond (passRaw b n)) :=
  (exec_next_iff_read (i := .valEncRaw) rfl _).mpr ⟨(b, n), (readEncRaw_ok_iff _ _ _).mpr ⟨hb, hn, hlo, hhi⟩, rfl⟩

end Raw

end Sys2Proof.Machine
end

section
/-! PROOFS. The FixedPoint operations (42_value_fixed_bitfield_raw.md R105 to R113). VAL.ENC.FX is the integer encode of
the rounded product, so the facts about the integer values carry over. -/

namespace Sys2Proof.Machine

/-- R65 item 7, as the claims write it. -/
theorem scaleInRange_iff (m : ScaleMax) (scale : Nat) :
    scaleInRange m scale = true ↔ 1 ≤ scale ∧ ∀ top, m = .atMost top → scale ≤ top := by
  cases m <;> simp [scaleInRange]

theorem scale_ne_zero_of_inRange {m : ScaleMax} {scale : Nat} (h : scaleInRange m scale = true) : (scale : ℚ) ≠ 0 :=
  Nat.cast_ne_zero.mpr (Nat.one_le_iff_ne_zero.mp ((scaleInRange_iff m scale).mp h).1)

theorem decodeFixed_of_length {sg : Signedness} {w : Width} {b : Bytes} (scale : Nat) (hb : b.length = w.bytes) :
    decodeFixed sg w b scale =
      { status := some .ok, ival := some (underlying sg w b), qval := some ((underlying sg w b : ℚ) / scale) } := by
  rw [decodeFixed, lengthChecked_eq _ _ _ hb, overScale_eq]

/-- R107 with the product and the rounding as R14 writes them. -/
theorem encodeFixed_eq (sg : Signedness) (w : Width) (q : ℚ) (scale : Nat) :
    encodeFixed sg w q scale = encodeInteger sg w (roundHalfAway (q * scale)) := by
  rw [encodeFixed, timesScale_eq, roundHalfAway_eq]

/-- An encode that gives bytes had a value in range, and they are the value's (R92, R94). -/
theorem encodeInteger_out_some {sg : Signedness} {w : Width} {v : Int} {out : Bytes}
    (h : (encodeInteger sg w v).out = some out) : inWidthRange sg w.bytes v ∧ toBe w.bytes (twos w.bytes v) = out := by
  obtain ⟨hrange, he⟩ | ⟨-, he⟩ := encodeInteger_range_cases sg w v <;> rw [he] at h
  · exact ⟨hrange, Option.some.inj h⟩
  · cases h

/-- Rounding changes every number but the integers (R14). -/
theorem roundHalfAway_eq_self_iff (x : ℚ) : (roundHalfAway x : ℚ) = x ↔ ∃ n : ℤ, x = n := by
  constructor
  · exact fun h => ⟨_, h.symm⟩
  · rintro ⟨n, rfl⟩
    rw [roundHalfAway_eq, roundHaz_intCast]

/-- Settles O29. -/
theorem valDecFxResult : Obligations.ValDecFxResult := by
  refine ⟨by decide, fun sg w s b scale hb hscale hpos hmax => ?_⟩
  have hexec := (exec_valDecFx_next_iff (sg := sg) (w := w) hb hscale).mpr
    ⟨(scaleInRange_iff _ _).mpr ⟨hpos, hmax⟩, rfl⟩
  refine ⟨fun hlen => ?_, fun hlen => ?_⟩
  · rw [hexec, decodeFixed, lengthChecked_ne _ _ _ hlen]
    rfl
  · rw [hexec, decodeFixed_of_length scale hlen, signedOrUnsigned_eq]
    rfl

/-- Settles O30. -/
theorem valEncFxResult : Obligations.ValEncFxResult := by
  refine ⟨by decide, fun sg w s q scale hq hscale hpos hmax => ?_⟩
  have hexec := (exec_valEncFx_next_iff (sg := sg) (w := w) hq hscale).mpr
    ⟨(scaleInRange_iff _ _).mpr ⟨hpos, hmax⟩, rfl⟩
  rw [encodeFixed_eq] at hexec
  refine ⟨fun hout => ?_, fun hin => ⟨_, toBe_length _ _, beSum_toBe_twos _ _, ?_⟩⟩
  · rw [hexec, encodeInteger_of_not_inWidthRange hout]
    rfl
  · rw [hexec, encodeInteger_of_inWidthRange hin]
    rfl

/-- Settles O31. `encodeFixed_eq` shows the response as a function of the rounded product; -0.4 rounds to 0 and -0.5 to
-1. -/
theorem rangeCheckIsOnTheRoundedValue : Obligations.RangeCheckIsOnTheRoundedValue := by
  refine ⟨fun sg w s s' t q q' scale hcfg hq hq' hscale hscale' hround h => ?_, ?_, ?_⟩
  · obtain ⟨hrange, rfl⟩ := (exec_valEncFx_next_iff hq hscale).mp h
    refine ⟨_, (exec_valEncFx_next_iff hq' hscale').mpr ⟨hcfg ▸ hrange, rfl⟩, ?_⟩
    rw [respond_rsp, respond_rsp, encodeFixed_eq, encodeFixed_eq, hround]
  · have hround : roundHalfAway (-4 / 100 * (10 : Nat)) = 0 := by norm_num [roundHalfAway, abs_div]
    rw [encodeFixed_eq, hround]
    rfl
  · have hround : roundHalfAway (-5 / 100 * (10 : Nat)) = -1 := by norm_num [roundHalfAway, abs_div]
    rw [encodeFixed_eq, hround]
    rfl

/-- Settles O32. The bytes of the rounded product read back as it, and dividing by the scale gives the value itself
where the product was already an integer. -/
theorem fixedPointEncodeThenDecode : Obligations.FixedPointEncodeThenDecode := by
  intro sg w s t u q scale out hq hscale h hout hcfg hinput hscaleu
  obtain ⟨hrange, rfl⟩ := (exec_valEncFx_next_iff hq hscale).mp h
  rw [respond_rsp, encodeFixed_eq] at hout
  obtain ⟨hfits, rfl⟩ := encodeInteger_out_some hout
  have hqval : (decodeFixed sg w (toBe w.bytes (twos w.bytes (roundHalfAway (q * scale)))) scale).qval =
      some ((roundHalfAway (q * scale) : ℚ) / scale) := by
    rw [decodeFixed_of_length scale (toBe_length _ _), underlying_toBe_twos sg w _ hfits]
  refine ⟨_, (exec_valDecFx_next_iff hinput hscaleu).mpr ⟨hcfg ▸ hrange, rfl⟩, hqval, ?_⟩
  rw [respond_rsp, hqval, Option.some_inj, div_eq_iff (scale_ne_zero_of_inRange hrange), roundHalfAway_eq_self_iff]

/-- Settles O33. The quotient times the scale is the integer that the bytes hold, which is in range (R106). -/
theorem fixedPointDecodeThenEncode : Obligations.FixedPointDecodeThenEncode := by
  intro sg w s b scale hb hscale hlen hpos hmax
  have hrange := (scaleInRange_iff _ _).mpr ⟨hpos, hmax⟩
  have hqval : (decodeFixed sg w b scale).qval = some (overScale (underlying sg w b) scale) := by
    rw [decodeFixed, lengthChecked_eq _ _ _ hlen]
  have henc : encodeFixed sg w (overScale (underlying sg w b) scale) scale = { status := some .ok, out := some b } := by
    rw [encodeFixed, roundHaz_timesScale_overScale _ _ hpos,
      encodeInteger_of_inWidthRange (underlying_inWidthRange sg w b hlen), toBe_twos_underlying sg w b hlen]
  refine ⟨_, _, (exec_valDecFx_next_iff hb hscale).mpr ⟨hrange, rfl⟩, hqval,
    fun u hcfg hq hscaleu => ?_⟩
  refine ⟨_, (exec_valEncFx_next_iff hq hscaleu).mpr ⟨hcfg ▸ hrange, rfl⟩, ?_⟩
  rw [respond_rsp, henc]
  exact ⟨rfl, rfl⟩

/-- A FixedPoint decode has the status and the integer of the integer decode, whatever the scale (R106). -/
theorem decodeFixed_eq_decodeInteger (sg : Signedness) (w : Width) (b : Bytes) (scale : Nat) :
    (decodeFixed sg w b scale).status = (decodeInteger sg w b).status ∧
      (decodeFixed sg w b scale).ival = (decodeInteger sg w b).ival := by
  by_cases hlen : b.length = w.bytes
  · rw [decodeFixed_of_length scale hlen, decodeInteger_of_length hlen]
    exact ⟨rfl, rfl⟩
  · rw [decodeFixed, decodeInteger, lengthChecked_ne _ _ _ hlen, lengthChecked_ne _ _ _ hlen]
    exact ⟨rfl, rfl⟩

/-- An integer value at scale 1 is encoded as the integer (R113). -/
theorem encodeFixed_one (sg : Signedness) (w : Width) (v : Int) : encodeFixed sg w v 1 = encodeInteger sg w v := by
  rw [encodeFixed, timesScale_eq, Nat.cast_one, mul_one, roundHaz_intCast]

/-- Settles O34. -/
theorem scaleOneAgreesWithTheIntegers : Obligations.ScaleOneAgreesWithTheIntegers := by
  refine fun sg w => ⟨fun s t hscale h => ?_, fun s t v hscale hq hv h => ?_⟩
  · obtain ⟨b, hb⟩ := input_of_exec_valDecFx h
    obtain ⟨-, rfl⟩ := (exec_valDecFx_next_iff hb hscale).mp h
    obtain ⟨hstatus, hival⟩ := decodeFixed_eq_decodeInteger sg w b 1
    exact ⟨_, exec_intDecode sg w s b hb, hstatus.symm, hival.symm⟩
  · obtain ⟨-, rfl⟩ := (exec_valEncFx_next_iff hq hscale).mp h
    refine ⟨_, exec_intEncode sg w s v hv, ?_⟩
    rw [respond_rsp, respond_rsp, encodeFixed_one]
    exact ⟨rfl, rfl⟩

end Sys2Proof.Machine
end

section
/-! PROOFS. Label tables (42_value_fixed_bitfield_raw.md R114 to R118): a legal one pairs names and bits one to one, so
a label's name and its bit say the same, and decoding then encoding keeps exactly the labelled bits. -/

namespace Sys2Proof.Machine

/-- R65 item 8, as the claims write it. -/
theorem labelsInRange_iff (w : Width) (labels : List Label) :
    labelsInRange w labels = true ↔
      (labels.map Label.name).Nodup ∧ (labels.map Label.bit).Nodup ∧ ∀ l ∈ labels, l.bit < 8 * w.bytes := by
  simp [labelsInRange, and_assoc]

/-- The number that VAL.ENC.BF writes: the bits of the named labels (R115). -/
def namedBits (labels : List Label) (names : List LabelName) : Nat :=
  labelMask (labels.filter fun l => decide (l.name ∈ names))

theorem namedBits_testBit {labels : List Label} (hbits : (labels.map Label.bit).Nodup) (names : List LabelName)
    (k : Nat) : (namedBits labels names).testBit k = true ↔ ∃ l ∈ labels, l.bit = k ∧ l.name ∈ names :=
  labelMask_filter_testBit labels names hbits k

/-- The named bits fit the width (R115). -/
theorem namedBits_lt {w : Width} {labels : List Label} (names : List LabelName)
    (hlabels : labelsInRange w labels = true) : namedBits labels names < 256 ^ w.bytes := by
  obtain ⟨-, hbits, hbound⟩ := (labelsInRange_iff w labels).mp hlabels
  rw [pow256]
  exact labelMask_filter_lt _ labels names hbits hbound

/-- Names are distinct: a label is active exactly when its own bit is set (R114). -/
theorem name_mem_activeNames {labels : List Label} {l : Label} (hnames : (labels.map Label.name).Nodup)
    (hl : l ∈ labels) (u : Nat) : l.name ∈ activeNames labels u ↔ u.testBit l.bit = true := by
  rw [mem_activeNames]
  constructor
  · rintro ⟨l', hl', hname, hbit⟩
    rwa [← List.inj_on_of_nodup_map hnames hl' hl hname]
  · exact fun hbit => ⟨l, hl, rfl, hbit⟩

theorem activeNames_labelled (labels : List Label) (u : Nat) : ∀ n ∈ activeNames labels u, ∃ l ∈ labels, l.name = n := by
  intro n hn
  obtain ⟨l, hl, hname, -⟩ := (mem_activeNames labels u n).mp hn
  exact ⟨l, hl, hname⟩

/-- Bits are distinct: a label's bit is encoded exactly when its own name is in the set (R115). -/
theorem namedBits_testBit_bit {labels : List Label} {l : Label} (hbits : (labels.map Label.bit).Nodup)
    (hl : l ∈ labels) (names : List LabelName) :
    (namedBits labels names).testBit l.bit = true ↔ l.name ∈ names := by
  rw [namedBits_testBit hbits]
  constructor
  · rintro ⟨l', hl', hbit, hname⟩
    rwa [← List.inj_on_of_nodup_map hbits hl' hl hbit]
  · exact fun hname => ⟨l, hl, rfl, hname⟩

/-- Encoding the names that a number's bits give keeps its labelled bits (R118). -/
theorem namedBits_activeNames {labels : List Label} (hnames : (labels.map Label.name).Nodup)
    (hbits : (labels.map Label.bit).Nodup) (u : Nat) :
    namedBits labels (activeNames labels u) = u &&& labelMask labels := by
  apply Nat.eq_of_testBit_eq
  intro k
  rw [Bool.eq_iff_iff, namedBits_testBit hbits, Nat.testBit_and, labelMask_testBit _ hbits]
  simp only [Bool.and_eq_true, List.any_eq_true, decide_eq_true_eq]
  constructor
  · rintro ⟨l, hl, rfl, hname⟩
    exact ⟨(name_mem_activeNames hnames hl u).mp hname, l, hl, rfl⟩
  · rintro ⟨hu, l, hl, rfl⟩
    exact ⟨l, hl, rfl, (name_mem_activeNames hnames hl u).mpr hu⟩

/-- Decoding the encoding of labelled names gives the names (R118). -/
theorem mem_activeNames_namedBits {labels : List Label} {names : List LabelName}
    (hbits : (labels.map Label.bit).Nodup) (hlabelled : ∀ n ∈ names, ∃ l ∈ labels, l.name = n) (n : LabelName) :
    n ∈ activeNames labels (namedBits labels names) ↔ n ∈ names := by
  rw [mem_activeNames]
  constructor
  · rintro ⟨l, hl, rfl, hbit⟩
    exact (namedBits_testBit_bit hbits hl names).mp hbit
  · intro hn
    obtain ⟨l, hl, rfl⟩ := hlabelled n hn
    exact ⟨l, hl, rfl, (namedBits_testBit_bit hbits hl names).mpr hn⟩

/-- No bit is unlabelled exactly when the table covers the number (R117). -/
theorem andNot_eq_zero_iff (u m : Nat) : andNot u m = 0 ↔ u &&& m = u := by
  rw [andNot, Nat.xor_eq_zero_iff, eq_comm]

/-- Bytes whose number is masked stay the same exactly when no bit of it is outside the mask (R118). -/
theorem toBe_and_eq_iff {n : Nat} {b : Bytes} (m : Nat) (hb : b.length = n) :
    toBe n (beNat b &&& m) = b ↔ andNot (beNat b) m = 0 := by
  rw [andNot_eq_zero_iff, ← hb]
  have hfits : beNat b &&& m < 256 ^ b.length := lt_of_le_of_lt Nat.and_le_left (beNat_lt b)
  constructor
  · intro h
    rw [← beNat_toBe _ _ hfits, h]
  · intro h
    rw [h, toBe_beNat]

/-- Every bit that the encoding of a set of names sets is labelled (R118). -/
theorem andNot_namedBits {labels : List Label} (hbits : (labels.map Label.bit).Nodup) (names : List LabelName) :
    andNot (namedBits labels names) (labelMask labels) = 0 := by
  refine Nat.zero_of_testBit_eq_false fun k => Bool.eq_false_iff.mpr fun hk => ?_
  obtain ⟨hset, hfree⟩ := (andNot_labelMask_testBit labels hbits _ k).mp hk
  obtain ⟨l, hl, hbit, -⟩ := (namedBits_testBit hbits names k).mp hset
  exact hfree l hl hbit

end Sys2Proof.Machine
end

section
/-! PROOFS. The BitField operations (42_value_fixed_bitfield_raw.md R114 to R118). -/

namespace Sys2Proof.Machine

theorem decodeBits_of_length {w : Width} {b : Bytes} (labels : List Label) (hb : b.length = w.bytes) :
    decodeBits w b labels =
      { status := some .ok, ival := some (beNat b : Int), names := some (activeNames labels (beNat b)),
        unlabelled := some (andNot (beNat b) (labelMask labels)) } :=
  lengthChecked_eq _ _ _ hb

/-- A decode that gives names read `w` bytes, and the names are those of their set bits (R90, R114). -/
theorem decodeBits_names_some {w : Width} {b : Bytes} {labels : List Label} {ns : List LabelName}
    (h : (decodeBits w b labels).names = some ns) : b.length = w.bytes ∧ activeNames labels (beNat b) = ns := by
  by_cases hb : b.length = w.bytes
  · rw [decodeBits_of_length labels hb] at h
    exact ⟨hb, Option.some.inj h⟩
  · rw [decodeBits, lengthChecked_ne _ _ _ hb] at h
    cases h

theorem hasLabel_iff (labels : List Label) (n : LabelName) : hasLabel labels n = true ↔ ∃ l ∈ labels, l.name = n := by
  simp [hasLabel]

/-- R115 where every name has a label. -/
theorem encodeBits_of_labelled {names : List LabelName} {labels : List Label} (w : Width)
    (h : ∀ n ∈ names, ∃ l ∈ labels, l.name = n) :
    encodeBits w names labels = { status := some .ok, out := some (toBe w.bytes (namedBits labels names)) } :=
  if_pos (List.all_eq_true.mpr fun n hn => (hasLabel_iff labels n).mpr (h n hn))

/-- R115 where a name has no label. -/
theorem encodeBits_of_unlabelled {names : List LabelName} {labels : List Label} {n : LabelName} (w : Width)
    (hn : n ∈ names) (h : ∀ l ∈ labels, l.name ≠ n) : encodeBits w names labels = raiseError .unrepresentable := by
  refine if_neg fun hall => ?_
  obtain ⟨l, hl, hname⟩ := (hasLabel_iff labels n).mp (List.all_eq_true.mp hall n hn)
  exact h l hl hname

/-- Settles O35. -/
theorem valDecBfResult : Obligations.ValDecBfResult := by
  refine ⟨by decide, fun w s b labels hb hlabels hnames hbits hbound => ?_⟩
  have hexec := (exec_valDecBf_next_iff (w := w) hb hlabels).mpr
    ⟨(labelsInRange_iff w labels).mpr ⟨hnames, hbits, hbound⟩, rfl⟩
  refine ⟨fun hlen => ?_, fun hlen => ?_⟩
  · rw [hexec, decodeBits, lengthChecked_ne _ _ _ hlen]
    rfl
  · rw [decodeBits_of_length labels hlen] at hexec
    rw [beSum_eq]
    exact ⟨_, _, hexec, mem_activeNames labels (beNat b), andNot_labelMask_testBit labels hbits (beNat b)⟩

/-- Settles O36. The sum of the powers fits the width, so the bytes read as it. -/
theorem valEncBfResult : Obligations.ValEncBfResult := by
  refine ⟨by decide, fun w s names labels hnames hlabels hdistinct hbits hbound => ?_⟩
  have hrange := (labelsInRange_iff w labels).mpr ⟨hdistinct, hbits, hbound⟩
  have hexec := (exec_valEncBf_next_iff hnames hlabels).mpr ⟨hrange, rfl⟩
  refine ⟨fun ⟨n, hn, hfree⟩ => ?_, fun hlabelled => ?_⟩
  · rw [hexec, encodeBits_of_unlabelled w hn hfree]
    rfl
  · rw [encodeBits_of_labelled w hlabelled] at hexec
    have hread : beSum (toBe w.bytes (namedBits labels names)) =
        namedBits labels names := by
      rw [beSum_eq, beNat_toBe _ _ (namedBits_lt names hrange)]
    refine ⟨_, toBe_length _ _, hread, fun k => ?_, hexec⟩
    rw [hread, namedBits_testBit hbits]

/-- Settles O37. A label's name is active exactly when its bit is set, and `beNat_testBit` finds that bit in the
bytes. -/
theorem bitNumberingOfABitField : Obligations.BitNumberingOfABitField := by
  refine ⟨fun w s t b labels ns hb hlabels h hns l hl => ?_, [1, 2], by decide, by simp⟩
  obtain ⟨hrange, rfl⟩ := (exec_valDecBf_next_iff hb hlabels).mp h
  obtain ⟨hnames, -, hbound⟩ := (labelsInRange_iff w labels).mp hrange
  obtain ⟨hlen, rfl⟩ := decodeBits_names_some hns
  rw [name_mem_activeNames hnames hl, ← hlen, ← beNat_testBit b l.bit (hlen ▸ hbound l hl)]

/-- Settles O38. Encoding then decoding is the identity on sets of labelled names; decoding then encoding keeps the
labelled bits, which are all of them exactly when none is unlabelled. -/
theorem bitFieldRoundTrips : Obligations.BitFieldRoundTrips := by
  refine ⟨fun w s names labels hnames hlabels hrange hlabelled => ?_, fun w s b labels hb hlabels hrange hlen => ?_⟩
  · obtain ⟨-, hbits, -⟩ := (labelsInRange_iff w labels).mp hrange
    have henc := (exec_valEncBf_next_iff hnames hlabels).mpr ⟨hrange, rfl⟩
    rw [encodeBits_of_labelled w hlabelled] at henc
    refine ⟨_, _, henc, rfl, fun u hinput hlabelsu => ?_⟩
    have hdec := (exec_valDecBf_next_iff hinput hlabelsu).mpr ⟨hrange, rfl⟩
    rw [decodeBits_of_length labels (toBe_length _ _), beNat_toBe _ _ (namedBits_lt names hrange)] at hdec
    exact ⟨_, _, hdec, rfl, mem_activeNames_namedBits hbits hlabelled,
      congrArg some (andNot_namedBits hbits names)⟩
  · obtain ⟨hdistinct, hbits, -⟩ := (labelsInRange_iff w labels).mp hrange
    have hdec := (exec_valDecBf_next_iff hb hlabels).mpr ⟨hrange, rfl⟩
    rw [decodeBits_of_length labels hlen] at hdec
    refine ⟨_, _, hdec, rfl, fun u hnamesu hlabelsu => ?_⟩
    have henc := (exec_valEncBf_next_iff hnamesu hlabelsu).mpr ⟨hrange, rfl⟩
    rw [encodeBits_of_labelled w (activeNames_labelled labels _), namedBits_activeNames hdistinct hbits] at henc
    refine ⟨_, henc, ?_⟩
    rw [respond_rsp, respond_rsp, Option.some_inj, Option.some_inj, toBe_and_eq_iff _ hlen]

end Sys2Proof.Machine
end

section
/-! PROOFS. The Raw operations (42_value_fixed_bitfield_raw.md R121 to R123). -/

namespace Sys2Proof.Machine

theorem passRaw_of_length {b : Bytes} {n : Nat} (hb : b.length = n) :
    passRaw b n = { status := some .ok, out := some b } :=
  lengthChecked_eq _ _ _ hb

theorem passRaw_of_length_ne {b : Bytes} {n : Nat} (hb : b.length ≠ n) : passRaw b n = raiseError .lengthMismatch :=
  lengthChecked_ne _ _ _ hb

/-- Settles O39. -/
theorem valDecRawResult : Obligations.ValDecRawResult := by
  refine ⟨by decide, fun s b n hb hn hlo hhi => ⟨fun hlen => ?_, fun hlen => ?_⟩⟩
  · rw [exec_valDecRaw hb hn hlo hhi, passRaw_of_length_ne hlen]
    rfl
  · rw [exec_valDecRaw hb hn hlo hhi, passRaw_of_length hlen]
    rfl

/-- Settles O40. A width of 0 makes the request ill-formed whatever its bytes are (R65 item 9). -/
theorem valEncRawResult : Obligations.ValEncRawResult := by
  refine ⟨by decide, fun s b n hb hn hlo hhi => ⟨fun hlen => ?_, fun hlen => ?_⟩, fun s hn => ?_⟩
  · rw [exec_valEncRaw hb hn hlo hhi, passRaw_of_length_ne hlen]
    rfl
  · rw [exec_valEncRaw hb hn hlo hhi, passRaw_of_length hlen]
    rfl
  · obtain ⟨-, hrefused, -⟩ := answersExactlyWellFormedRequests .valEncRaw s
    exact hrefused (by simp [Request.wellFormed, rwidthWellFormed, hn])

/-- Settles O41. Both operations pass bytes of the width's length through. -/
theorem rawRoundTrip : Obligations.RawRoundTrip := by
  refine fun s b hn hlo hhi => ⟨fun hb => ⟨_, b, exec_valEncRaw hb hn hlo hhi, ?_, fun u hnu hbu => ?_⟩,
    fun hb => ⟨_, b, exec_valDecRaw hb hn hlo hhi, ?_, fun u hnu hbu => ?_⟩⟩
  · rw [respond_rsp, passRaw_of_length rfl]
  · exact ⟨_, exec_valDecRaw hbu hnu hlo hhi, by rw [respond_rsp, passRaw_of_length rfl]⟩
  · rw [respond_rsp, passRaw_of_length rfl]
  · exact ⟨_, exec_valEncRaw hbu hnu hlo hhi, by rw [respond_rsp, passRaw_of_length rfl]⟩

end Sys2Proof.Machine
end

section
/-! PROOFS. How an operation ends (60_exceptions.md R130 to R132, R136, R147): OK, or with an error of its row of R131, which
leaves its status and nothing else. -/

namespace Sys2Proof.Machine

/-- Every answer is OK, or the bare response of an error of the operation's row. -/
theorem Answer.ok_or_error {cfg : Config} {req : Request} {i : Instr} {r : Response} (h : Answer cfg req i r) :
    r.status = some .ok ∨ ∃ e, raises i e ∧ r = raiseError e := by
  cases h with
  | error _ e he => exact .inr ⟨e, he, rfl⟩
  | _ => exact .inl rfl

/-- What an operation that answers can leave: a response with status OK, or the state it began in with nothing but an
error's status as its response. -/
theorem exec_next_ok_or_error {i : Instr} {s t : State} (h : exec i s = .next t) :
    t.rsp.status = some .ok ∨ ∃ e, raises i e ∧ t = s.respond (raiseError e) := by
  obtain ⟨rsp, hr, rfl⟩ := (exec_next_iff i s t).mp h
  obtain hok | ⟨e, he, rfl⟩ := (response_answer _ _ _ _ hr).ok_or_error
  · exact .inl hok
  · exact .inr ⟨e, he, rfl⟩

/-- Settles O47. -/
theorem anErrorLeavesOnlyItsStatus : Obligations.AnErrorLeavesOnlyItsStatus := by
  intro i s t e h hstatus hne
  obtain hok | ⟨e', -, rfl⟩ := exec_next_ok_or_error h
  · exact absurd (Option.some.inj (hstatus.symm.trans hok)) hne
  · obtain rfl : e' = e := Option.some.inj hstatus
    rfl

/-- Settles O48. The rows of the statement are those of `raises`, said of the recorded status. -/
theorem whichErrorsAnOperationRaises : Obligations.WhichErrorsAnOperationRaises := by
  intro i s t h hne
  obtain hok | ⟨e, he, rfl⟩ := exec_next_ok_or_error h
  · exact absurd hok hne
  refine ⟨rfl, ?_⟩
  cases i with
  | frmEnc | frmCsum => exact he
  | frmDec => exact he.imp (congrArg some) (Or.imp (congrArg some) (congrArg some))
  | _ => exact congrArg some he

/-- Settles O6. -/
theorem stepWithNothingInFlightIsIdle : Obligations.StepWithNothingInFlightIsIdle := step_idle

/-- Settles O16. `CT_ERROR` is the code of a command type like the other four, so the frame is one that FRM.DEC reads back. -/
theorem errorFrameDecodesOk : Obligations.ErrorFrameDecodesOk := by
  intro s x y hi lo len payload hlen hin
  have hdec := frmDec_anyFrame s.cfg x y s.cfg.ctError hi lo len payload [] .error hlen rfl
  rw [List.append_nil] at hdec
  have hexec := exec_frmDec s (anyFrame x y s.cfg.ctError hi lo len payload) hin
  rw [hdec] at hexec
  exact ⟨_, _, hexec, rfl, rfl, rfl, rfl⟩

/-- The codes of R130 are all there are. -/
theorem Status.code_mem (e : Status) : e.code ∈ [0x00, 0x10, 0x11, 0x12, 0x20, 0x21] := by
  cases e <;> decide

/-- Settles O49. -/
theorem statusCodes : Obligations.StatusCodes := by
  refine ⟨⟨rfl, rfl, rfl, rfl, rfl, rfl⟩, fun i s t h => ?_⟩
  obtain hok | ⟨e, -, rfl⟩ := exec_next_ok_or_error h
  · exact ⟨_, hok, Status.code_mem _⟩
  · exact ⟨e, rfl, e.code_mem⟩

end Sys2Proof.Machine
end

section
/-! PROOFS. Reset, overlapping requests, and the host's duty towards Error frames (70_reset_and_hazards.md R151, R153, R158,
R160; log 12). -/

namespace Sys2Proof.Machine

/-! A program whose first request is performed goes on with the rest from the state that leaves. -/

theorem runRequests_cons {r : Request} {s t : State} (h : perform r s = .next t) (rs : List Request) :
    runRequests (r :: rs) s = runRequests rs t := by
  simp only [runRequests, h]

theorem transcript_cons {r : Request} {s t : State} (h : perform r s = .next t) (rs : List Request) :
    transcript (r :: rs) s = { request := r, response := t.rsp } :: transcript rs t := by
  simp only [transcript, h]

/-- A program that ran to its end, followed by a well-formed request, runs to its end too: the last response is the one the
rules give for that request, and the host has seen one exchange more. -/
theorem runRequests_then_wellFormed {pre : List Request} {s u : State} {r : Request} {i : Instr} (hs : s.inFlight = false)
    (hrun : runRequests pre s = .next u) (hi : fetch r = .ok i) (hwf : Request.wellFormed s.cfg i r = true) :
    ∃ rsp, response s.cfg i r = .ok rsp ∧
      runRequests (pre ++ [r]) s = .next { u with req := r, rsp := rsp, inFlight := false } ∧
      transcript (pre ++ [r]) s = transcript pre s ++ [{ request := r, response := rsp }] := by
  obtain ⟨hidle, hcfg⟩ := runRequests_next pre s u hs hrun
  obtain ⟨rsp, hr⟩ := (response_ok_iff_wellFormed s.cfg i r).mpr hwf
  have hlast := perform_of_response hidle hi (hcfg ▸ hr)
  refine ⟨rsp, hr, ?_, ?_⟩
  · exact (runRequests_append pre [r] s u hrun).trans (runRequests_cons hlast [])
  · rw [transcript_append pre [r] s u hrun, transcript_cons hlast []]
    rfl

/-- A VAL.DEC is among those that the check flags exactly when the bytes it decodes are one of the payloads. -/
theorem decodesOneOf_valueDecode {payloads : List Bytes} {r : Request} {i : Instr} {p : Bytes} (hi : fetch r = .ok i)
    (hdec : Instr.isValueDecode i = true) (hp : r.input = .val p) : decodesOneOf payloads r = decide (p ∈ payloads) := by
  rw [Bool.eq_iff_iff, decodesOneOf_iff, decide_eq_true_iff]
  constructor
  · rintro ⟨_, b, -, -, hmem, hb⟩
    exact Slot.val.inj (hp.symm.trans hb) ▸ hmem
  · exact fun hmem => ⟨i, p, hi, hdec, hmem, hp⟩

/-- A last VAL.DEC adds its flag to the check exactly when its bytes are the payload of an Error frame seen before. -/
theorem breaksErrorFrameDuty_append_valueDecode {r : Request} {i : Instr} {p : Bytes} (es : List Exchange)
    (rsp : Response) (hi : fetch r = .ok i) (hdec : Instr.isValueDecode i = true) (hp : r.input = .val p) :
    breaksErrorFrameDuty (es ++ [{ request := r, response := rsp }]) =
      (breaksErrorFrameDuty es || decide (∃ e ∈ es, p ∈ errorPayloads e)) := by
  simp [breaksErrorFrameDuty, breaksDutyFrom_append, breaksDutyFrom, decodesOneOf_valueDecode hi hdec hp]

/-- R80: what an exchange that decoded a frame adds to the payloads not to be decoded. -/
theorem mem_errorPayloads_iff {e : Exchange} {g : Frame} (hg : e.response.frame = some g) :
    g.payload ∈ errorPayloads e ↔ g.commandType = .error := by
  by_cases h : g.commandType = .error <;> simp [errorPayloads, hg, h]

/-- With no payload to avoid, no request is flagged. -/
theorem decodesOneOf_nil (r : Request) : decodesOneOf [] r = false := by
  rw [Bool.eq_false_iff, Ne, decodesOneOf_iff]
  simp

/-- So the check flags nothing before a second exchange. -/
theorem breaksErrorFrameDuty_singleton (e : Exchange) : breaksErrorFrameDuty [e] = false := by
  simp [breaksErrorFrameDuty, breaksDutyFrom, decodesOneOf_nil]

/-- Settles O60. The request runs because it is well-formed, whatever stood before (`runRequests_then_wellFormed`); the check
then asks whether its bytes are an Error payload seen before, and the frame's exchange, which is the first, is never
forgotten. -/
theorem decodingAnErrorPayloadIsFlaggedNotRefused : Obligations.DecodingAnErrorPayloadIsFlaggedNotRefused := by
  intro s b g i r hs hg hi hdec hwf hin
  have hfirst := perform_frmDec s b hs
  refine ⟨?_, fun between u hrun => ?_⟩
  · obtain ⟨rsp, -, -, htr⟩ := runRequests_then_wellFormed hs (runRequests_cons hfirst []) hi hwf
    rw [List.singleton_append, transcript_cons hfirst []] at htr
    rw [htr, breaksErrorFrameDuty_append_valueDecode _ rsp hi hdec hin, transcript, breaksErrorFrameDuty_singleton]
    simp [mem_errorPayloads_iff, hg]
  · obtain ⟨rsp, hr, hlast, htr⟩ := runRequests_then_wellFormed hs hrun hi hwf
    refine ⟨⟨_, _, hlast, (exec_next_iff _ _ _).mpr ⟨rsp, hr, rfl⟩, rfl⟩, fun herr => ?_⟩
    rw [htr, transcript_cons hfirst, breaksErrorFrameDuty_append_valueDecode _ rsp hi hdec hin]
    simp [mem_errorPayloads_iff, hg, herr]

/-- Every start and every reset leave the block in the reset state of its configuration (R150, R153, R155). -/
theorem eq_resetWith_of_reset {s : State}
    (h : s = State.reset ∨ (∃ u : State, s = u.hostReset) ∨ (∃ p, boot p = .next s)) : s = State.resetWith s.cfg := by
  obtain rfl | ⟨u, rfl⟩ | ⟨p, hp⟩ := h
  · rfl
  · rfl
  · obtain ⟨-, rfl⟩ := (boot_next_iff p s).mp hp
    rfl

/-- Settles O50. After reset the response record is empty, and with the first request issued it cannot be read either. -/
theorem recordsHoldNoValueAfterReset : Obligations.RecordsHoldNoValueAfterReset := by
  intro s h
  rw [eq_resetWith_of_reset h]
  refine ⟨rfl, rfl, rfl, everyReadFaults_of _ (.inr rfl), fun r t ht => everyReadFaults_of t (.inl ?_)⟩
  obtain ⟨-, rfl⟩ := (issue_next_iff _ t r).mp ht
  rfl

/-- Settles O53. -/
theorem overlappingRequestIsRefused : Obligations.OverlappingRequestIsRefused :=
  fun s r => ⟨issue_busy s r, issue_idle s r⟩

end Sys2Proof.Machine
end
